-- ==== Sys2Proof/Word.lean ====
section
/-! DEFINITION. The widths the spec gives: bytes of program text, halfwords and words of an instruction, the
64-bit and 128-bit SIMD&FP registers and their numbers. -/

namespace Sys2Proof

/-- One byte of program text (R38). -/
abbrev Byte := BitVec 8

/-- One T32 halfword (R51). -/
abbrev Halfword := BitVec 16

/-- An instruction word, an address, a program counter value (R26, R38, R51). -/
abbrev Word := BitVec 32

/-- The content of a 64-bit SIMD&FP register (R22). -/
abbrev Doubleword := BitVec 64

/-- The content seen under a 128-bit SIMD&FP name (R23). -/
abbrev Quadword := BitVec 128

/-- The number of a 64-bit SIMD&FP register, 0 to 31, the field `D:Vd` or `M:Vm` (R22, R55). -/
abbrev DNum := BitVec 5

/-- The number of a 128-bit SIMD&FP name, 0 to 15 (R23). -/
abbrev QNum := BitVec 4

end Sys2Proof
end

