-- ==== Sys2Proof/Config.lean ====
section
/-! DEFINITION. What the spec leaves open and the model may not choose: the UNKNOWN values that a VZIP naming one
register twice writes. They have no body, so no proof can evaluate them. -/

namespace Sys2Proof

/-- `bits(64) UNKNOWN` (R13, R81): the draw of the step with the given index. DESIGN CHOICE, log 7. -/
opaque Config.unknown64 : Nat → Doubleword

/-- `bits(128) UNKNOWN` (R13, R81): the draw of the step with the given index. DESIGN CHOICE, log 7. -/
opaque Config.unknown128 : Nat → Quadword

end Sys2Proof
end

