-- ==== Sys2Proof/Syntax.lean ====
section
/-! DEFINITION. The instruction sets, the four encodings of VZIP as abstract instructions, and the assembler's
terms for them. -/

namespace Sys2Proof

/-- The instruction-set state (R28). -/
inductive Iset where
  | A32
  | T32
  deriving DecidableEq, Repr

/-- VZIP, one constructor per row of the opcode table. `size` is the field of that name; `d` is `D:Vd` and `m` is
`M:Vm`, always numbers of 64-bit registers (R55). The fields are held as encoded, UNDEFINED values among them,
because an UNDEFINED word whose condition fails still runs (R91). -/
inductive Instr where
  /-- VZIP_A1_D (R84): A32, 64-bit SIMD vector. -/
  | vzipA1D (size : BitVec 2) (d m : DNum)
  /-- VZIP_A1_Q (R85): A32, 128-bit SIMD vector. -/
  | vzipA1Q (size : BitVec 2) (d m : DNum)
  /-- VZIP_T1_D (R86): T32, 64-bit SIMD vector. -/
  | vzipT1D (size : BitVec 2) (d m : DNum)
  /-- VZIP_T1_Q (R87): T32, 128-bit SIMD vector. -/
  | vzipT1Q (size : BitVec 2) (d m : DNum)
  deriving DecidableEq, Repr

/-- The data types `<dt>` (R64). -/
inductive DataType where
  | dt8
  | dt16
  | dt32
  deriving DecidableEq, Repr

/-- The register operands of a template: `<Dd>, <Dm>` (R62) or `<Qd>, <Qm>` (R63). -/
inductive AsmRegs where
  | doubles (i j : DNum)
  | quads (i j : QNum)
  deriving DecidableEq, Repr

/-- The condition mnemonics of `<c>` (R65). PRESUMED, log 25: the list is the spec's G19. -/
inductive Cond where
  | eq | ne | cs | cc | mi | pl | vs | vc | hi | ls | ge | lt | gt | le | al
  deriving DecidableEq, Repr

/-- An assembler line `VZIP{<c>}{<q>}.<dt> <reg>, <reg>` for one instruction set (R62, R63). `c` is `<c>` where it is
written; `wide` says that the qualifier `<q>` is written `.W` (R66; PRESUMED, log 25). -/
structure AsmLine where
  iset : Iset
  c    : Option Cond
  wide : Bool
  dt   : DataType
  regs : AsmRegs
  deriving DecidableEq, Repr

end Sys2Proof
end

