-- ==== Sys2Proof/WellFormed.lean ====
section
/-! DEFINITION. Which instructions are not UNDEFINED encodings (R58, R77): the check that the tests' ill-formed
terms fail. -/

namespace Sys2Proof

/-- `<dt>` of the 64-bit variant: size 00 or 01, `1x` being RESERVED (R64). -/
def sizeOkD (size : BitVec 2) : Bool := size == 0b00#2 || size == 0b01#2

/-- `<dt>` of the 128-bit variant: size 00, 01 or 10, `11` being RESERVED (R64). -/
def sizeOkQ (size : BitVec 2) : Bool := size == 0b00#2 || size == 0b01#2 || size == 0b10#2

/-- A D-register number that names a Q register: `<Qd>*2` (R68). -/
def namesQuad (d : DNum) : Bool := d.extractLsb' 0 1 == 0#1

/-- The instruction is not an UNDEFINED encoding (R58). -/
def Instr.wellFormed : Instr → Bool
  | .vzipA1D size _ _ => sizeOkD size
  | .vzipA1Q size d m => sizeOkQ size && namesQuad d && namesQuad m
  | .vzipT1D size _ _ => sizeOkD size
  | .vzipT1Q size d m => sizeOkQ size && namesQuad d && namesQuad m

end Sys2Proof
end

