-- ==== Sys2Proof/Decode.lean ====
section
/-! DEFINITION. From the bytes of program text to the abstract instruction and back: the byte order of a fetch
(R40), the opcode map (R56), the operand fields (R55), the UNDEFINED checks of the decode pseudocode (R77), and the
encoder written from the two formats (R52, R53). -/

namespace Sys2Proof

/-- The four rows of the opcode map (R56). -/
inductive Encoding where
  | a1D
  | a1Q
  | t1D
  | t1Q
  deriving DecidableEq, Repr

/-- What the decoder answers on a list of bytes. -/
inductive DecodeResult where
  /-- The instruction, and the bytes after it. -/
  | ok (i : Instr) (rest : List Byte)
  /-- The bytes are not a VZIP encoding of this instruction set (R57). -/
  | notVZIP
  /-- The list ends inside the instruction. -/
  | truncated
  deriving DecidableEq, Repr

/-- A field with its lowest bit at bit `lo` of an otherwise zero word. -/
def placeAt {n : Nat} (field : BitVec n) (lo : Nat) : Word := field.setWidth 32 <<< lo

/-- `a : b` of a bit and four bits, the bit the more significant (R7, R55). -/
def highAndLow (a : BitVec 1) (b : BitVec 4) : DNum := a.setWidth 5 <<< 4 ||| b.setWidth 5

/-! ### The opcode map -/

/-- The rows, in the table's order. -/
def Encoding.all : List Encoding := [.a1D, .a1Q, .t1D, .t1Q]

/-- The instruction set of a row (R56). -/
def Encoding.iset : Encoding → Iset
  | .a1D => .A32
  | .a1Q => .A32
  | .t1D => .T32
  | .t1Q => .T32

/-- The mask of a row (R56): the constant bits of R52 and R53 and bit 6. -/
def Encoding.mask : Encoding → Word
  | .a1D => 0xFFB30FD0#32
  | .a1Q => 0xFFB30FD0#32
  | .t1D => 0xFFB30FD0#32
  | .t1Q => 0xFFB30FD0#32

/-- The match value of a row (R56). -/
def Encoding.bits : Encoding → Word
  | .a1D => 0xF3B20180#32
  | .a1Q => 0xF3B201C0#32
  | .t1D => 0xFFB20180#32
  | .t1Q => 0xFFB201C0#32

/-- `instr & mask == match`, and `iset` is the row's (R56). -/
def Encoding.holds (e : Encoding) (iset : Iset) (w : Word) : Bool :=
  e.iset == iset && (w &&& e.mask) == e.bits

/-- The instruction a row stands for, from its operand fields. -/
def Encoding.build (e : Encoding) (size : BitVec 2) (d m : DNum) : Instr :=
  match e with
  | .a1D => .vzipA1D size d m
  | .a1Q => .vzipA1Q size d m
  | .t1D => .vzipT1D size d m
  | .t1Q => .vzipT1Q size d m

/-! ### The operand fields -/

/-- The field `size`, bits 19:18 (R52, R53). -/
def fieldSize (w : Word) : BitVec 2 := w.extractLsb' 18 2

/-- `D : Vd`, bit 22 above bits 15:12 (R55). -/
def fieldD (w : Word) : DNum := highAndLow (w.extractLsb' 22 1) (w.extractLsb' 12 4)

/-- `M : Vm`, bit 5 above bits 3:0 (R55). -/
def fieldM (w : Word) : DNum := highAndLow (w.extractLsb' 5 1) (w.extractLsb' 0 4)

/-- The instruction a 32-bit word is in an instruction set, if it matches a row (R56, R57). -/
def decodeWord (iset : Iset) (w : Word) : Option Instr :=
  (Encoding.all.find? fun e => e.holds iset w).map fun e =>
    e.build (fieldSize w) (fieldD w) (fieldM w)

/-! ### The bytes of an instruction -/

/-- The A32 instruction word of four bytes at rising addresses: little-endian (R40). -/
def wordOfA32 (b0 b1 b2 b3 : Byte) : Word :=
  placeAt b3 24 ||| placeAt b2 16 ||| placeAt b1 8 ||| placeAt b0 0

/-- The first or second halfword of a T32 instruction: little-endian (R40). -/
def halfwordOf (b0 b1 : Byte) : Halfword := b1.setWidth 16 <<< 8 ||| b0.setWidth 16

/-- `hw1 : hw2` (R40, R53). -/
def wordOfT32 (hw1 hw2 : Halfword) : Word := placeAt hw1 16 ||| placeAt hw2 0

/-- The first halfword is one of the eight of R54: its constant bits are those of `1111 1111 1D11 ss10`. -/
def firstHalfwordOk (hw1 : Halfword) : Bool := (hw1 &&& 0xFFB3#16) == 0xFFB2#16

/-- Name a word that matches no row. -/
def DecodeResult.ofWord (found : Option Instr) (rest : List Byte) : DecodeResult :=
  match found with
  | some i => .ok i rest
  | none => .notVZIP

/-- The decoder, total on any bytes. In T32 the second halfword is given a meaning only where the first is one of
VZIP's (R60). -/
def decode : Iset → List Byte → DecodeResult
  | .A32, b0 :: b1 :: b2 :: b3 :: rest =>
      .ofWord (decodeWord .A32 (wordOfA32 b0 b1 b2 b3)) rest
  | .A32, _ => .truncated
  | .T32, b0 :: b1 :: rest =>
      if firstHalfwordOk (halfwordOf b0 b1) then
        match rest with
        | b2 :: b3 :: rest' =>
            .ofWord (decodeWord .T32 (wordOfT32 (halfwordOf b0 b1) (halfwordOf b2 b3))) rest'
        | _ => .truncated
      else .notVZIP
  | .T32, _ => .truncated

/-! ### The decode pseudocode's checks -/

/-- The instruction set an instruction is encoded in: class A1 or class T1 (R2). -/
def Instr.iset : Instr → Iset
  | .vzipA1D _ _ _ => .A32
  | .vzipA1Q _ _ _ => .A32
  | .vzipT1D _ _ _ => .T32
  | .vzipT1Q _ _ _ => .T32

/-- The bit `Q` (R52, R53). -/
def Instr.q : Instr → BitVec 1
  | .vzipA1D _ _ _ => 0#1
  | .vzipA1Q _ _ _ => 1#1
  | .vzipT1D _ _ _ => 0#1
  | .vzipT1Q _ _ _ => 1#1

/-- The field `size`. -/
def Instr.size : Instr → BitVec 2
  | .vzipA1D size _ _ => size
  | .vzipA1Q size _ _ => size
  | .vzipT1D size _ _ => size
  | .vzipT1Q size _ _ => size

/-- The first register number, `UInt(D:Vd)` (R55). -/
def Instr.d : Instr → DNum
  | .vzipA1D _ d _ => d
  | .vzipA1Q _ d _ => d
  | .vzipT1D _ d _ => d
  | .vzipT1Q _ d _ => d

/-- The second register number, `UInt(M:Vm)` (R55). -/
def Instr.m : Instr → DNum
  | .vzipA1D _ _ m => m
  | .vzipA1Q _ _ m => m
  | .vzipT1D _ _ m => m
  | .vzipT1Q _ _ m => m

/-- The checks U1, U2 and U3 of R77. `Vd<0>` and `Vm<0>` are the lowest bits of `D:Vd` and `M:Vm`. -/
def undefinedFields (q : BitVec 1) (size : BitVec 2) (d m : DNum) : Bool :=
  size == 0b11#2 || (q == 0#1 && size == 0b10#2) || (q == 1#1 && (d.getLsbD 0 || m.getLsbD 0))

/-- The decode pseudocode makes the instruction UNDEFINED (R73, R77). -/
def Instr.undef (i : Instr) : Bool := undefinedFields i.q i.size i.d i.m

/-! ### The encoder -/

/-- Bits 31:23: `111100111` in A1, `111111111` in T1 (R52, R53). -/
def topBits : Iset → BitVec 9
  | .A32 => 0b111100111#9
  | .T32 => 0b111111111#9

/-- The rows of the format tables from bit 31 down, each at its lowest bit (R52, R53). -/
def encodeFields (iset : Iset) (q : BitVec 1) (size : BitVec 2) (d m : DNum) : Word :=
  placeAt (topBits iset) 23 ||| placeAt (d.extractLsb' 4 1) 22 ||| placeAt 0b11#2 20 ||| placeAt size 18 |||
    placeAt 0b10#2 16 ||| placeAt (d.extractLsb' 0 4) 12 ||| placeAt 0b0#1 11 ||| placeAt 0b0011#4 7 |||
    placeAt q 6 ||| placeAt (m.extractLsb' 4 1) 5 ||| placeAt 0b0#1 4 ||| placeAt (m.extractLsb' 0 4) 0

/-- The word of an instruction (R52, R53). -/
def encodeWord (i : Instr) : Word := encodeFields i.iset i.q i.size i.d i.m

/-- The bytes of a word at rising addresses in an instruction set (R40). -/
def bytesOf (iset : Iset) (w : Word) : List Byte :=
  match iset with
  | .A32 => [w.extractLsb' 0 8, w.extractLsb' 8 8, w.extractLsb' 16 8, w.extractLsb' 24 8]
  | .T32 => [w.extractLsb' 16 8, w.extractLsb' 24 8, w.extractLsb' 0 8, w.extractLsb' 8 8]

/-- The bytes of an instruction at rising addresses (R40, R70). -/
def encode (i : Instr) : List Byte := bytesOf i.iset (encodeWord i)

/-! ### The opcode table's numbering -/

/-- The instruction set of a word as the opcode table writes it: its rows of class T1 are those whose bits 31:23 are
all ones (R52, R53). Log 26. -/
def tableIset (w : Word) : Iset := if w.extractLsb' 23 9 == topBits .T32 then .T32 else .A32

/-- The word of a table row's number: the bits above `nbits` are zero. -/
def tableWord (nbits w : Nat) : Word := BitVec.ofNat 32 (w % 2 ^ nbits)

/-- The instruction the decoder reads from the bytes of a table word (for T1 the table's word is `hw1 : hw2`). -/
def decodeTableWord (nbits w : Nat) : Option Instr :=
  let word := tableWord nbits w
  match decode (tableIset word) (bytesOf (tableIset word) word) with
  | .ok i _ => some i
  | .notVZIP => none
  | .truncated => none

end Sys2Proof
end

