-- ==== Sys2Proof/Machine/State.lean ====
section
/-! DEFINITION. The state of the machine as plain data, the reasons a step can stop, and the launch state the model
takes for reset. -/

namespace Sys2Proof.Machine

/-- What `CheckAdvSIMDEnabled()` can answer (R92). -/
inductive AdvSimdCheck where
  | enabled
  | undefined
  | hypTrap
  deriving DecidableEq, Repr

/-- The Security states (R32; the list is the spec's G28). PRESUMED, log 5. -/
inductive SecurityState where
  | secure
  | nonSecure
  deriving DecidableEq, Repr

/-- The PE modes (R32; the list is the spec's G28). PRESUMED, log 5. -/
inductive PeMode where
  | user
  | fiq
  | irq
  | supervisor
  | monitor
  | abort
  | hyp
  | undef
  | system
  deriving DecidableEq, Repr

/-- The state the source names and gives no rule for but this: no VZIP writes it, and it bears on a VZIP only through
`condPassed` and `advsimdCheck` (R29 to R33). Log 6. -/
structure SystemState where
  n        : Bool
  z        : Bool
  c        : Bool
  v        : Bool
  dit      : Bool
  cpacr    : Word
  nsacr    : Word
  hcptr    : Word
  security : SecurityState
  mode     : PeMode
  deriving DecidableEq, Repr

/-- Program text: bytes by address, addresses strictly rising and below 2^32 (R38). -/
abbrev Memory := List Host.Cell

/-- The parameters of the step relation (R35, R105): fixed for the whole run. -/
structure Params where
  /-- The program text, a partial map from addresses to bytes (R38). -/
  prog : Memory
  /-- `cond_passed(k)` for k = 0, 1, ... in T32, `true` past the end of the list (R90). Log 8. -/
  condPassed : List Bool
  /-- The result of the enable check (R92). Log 9. -/
  advsimdCheck : AdvSimdCheck
  /-- Whether an UNDEFINED encoding whose condition fails faults (R91). Log 10. -/
  undefWhenCondFails : Bool
  /-- The address at which a run ends (R108). -/
  endPc : Word
  deriving DecidableEq, Repr

/-- The state: the record of R35, the step index of R107 and R108, the parameters, and the named system state. -/
structure State where
  /-- D[0] to D[31] (R22). -/
  dregs : Vector Doubleword 32
  /-- The address of the instruction about to be executed (R26). -/
  pc : Word
  /-- The instruction-set state (R28). -/
  iset : Iset
  /-- The step index k (R107). -/
  k : Nat
  params : Params
  sys : SystemState
  deriving DecidableEq, Repr

/-- Why a step ends in a fault. Each leaves the state as it was before the step and ends the run (R89, R93, R96); the
spec describes no entry into a handler (R98), so stopping is safe: nothing is concluded of what a handler does. -/
inductive Fault where
  /-- Raised by a VZIP whose encoding is UNDEFINED (R77) or whose enable check answers `Undefined` (R92), with the pc and
  the instruction word (R89). Safe. -/
  | undefinedInstruction (pc instr : Word)
  /-- Raised by a VZIP whose enable check answers `HypTrap` (R93), with the pc. Safe. -/
  | hypTrap (pc : Word)
  deriving DecidableEq, Repr

/-- Why a step gives the situation no meaning (R19). Each ends the run and allows no conclusion, so each is safe. -/
inductive Refusal where
  /-- Raised by an arm of `exec` that has no meaning yet. None has. -/
  | notModelled (mnemonic : String)
  /-- Raised by a step whose pc is misaligned for the instruction set (R41). -/
  | misalignedPc
  /-- Raised by a step one of whose four bytes is not in the program text, or would wrap (R39). -/
  | fetchOutsideProgram
  /-- Raised by a step whose word is not a VZIP encoding of the current instruction set (R57). -/
  | notVZIP
  deriving DecidableEq, Repr

/-- The outcome of a step (R19). -/
abbrev StepOutcome := Host.Outcome State Fault Refusal

/-- The launch values of the named system state. The spec gives none. PRESUMED and DESIGN CHOICE, log 5. -/
def SystemState.reset : SystemState :=
  { n := false, z := false, c := false, v := false, dit := false,
    cpacr := 0x00F00000#32, nsacr := 0x00000C00#32, hcptr := 0x000033FF#32,
    security := .secure, mode := .supervisor }

/-- The launch values of the parameters: no program text, every condition passing and no fault on a failed condition
(the defaults of R90 and R91), the check Enabled, and a run that ends where it starts. DESIGN CHOICE, logs 4, 8, 10. -/
def Params.reset : Params :=
  { prog := [], condPassed := [], advsimdCheck := .enabled, undefWhenCondFails := false,
    endPc := 0x00008000#32 }

/-- The launch state the model takes for reset. The spec gives k = 0 (R108) and no other value (R37): DESIGN CHOICE,
logs 1 to 5. -/
def State.reset : State :=
  { dregs := Vector.replicate 32 0#64, pc := 0x00008000#32, iset := .A32, k := 0,
    params := .reset, sys := .reset }

end Sys2Proof.Machine
end

