-- ==== Sys2Proof/Machine/Ops.lean ====
section
/-! DEFINITION. The named operations: registers under their 64-bit and 128-bit names, the program text, the fetch,
the advance of the pc, and taking an exception. -/

namespace Sys2Proof.Machine

/-! ### The SIMD&FP registers -/

/-- `D[n]` (R12, R22). -/
def State.readD (s : State) (n : DNum) : Doubleword := s.dregs[n.toNat]

/-- `D[n] <- v` (R12, R22). No register is hardwired. -/
def State.writeD (s : State) (n : DNum) (v : Doubleword) : State :=
  { s with dregs := s.dregs.set n.toNat v }

/-- The number 2n of the low half of Q[n] (R24). -/
def lowHalf (n : QNum) : DNum := n ++ 0#1

/-- The number 2n+1 of the high half of Q[n] (R24). -/
def highHalf (n : QNum) : DNum := n ++ 1#1

/-- `Q[n]`, which is `D[2n+1] : D[2n]` (R24). Log 15. -/
def State.readQ (s : State) (n : QNum) : Quadword := s.readD (highHalf n) ++ s.readD (lowHalf n)

/-- `Q[n] <- v`: D[2n] takes bits 63:0 and D[2n+1] bits 127:64 (R24). Log 15. -/
def State.writeQ (s : State) (n : QNum) (v : Quadword) : State :=
  (s.writeD (lowHalf n) (v.extractLsb' 0 64)).writeD (highHalf n) (v.extractLsb' 64 64)

/-! ### The program text -/

/-- What an address holds that the text does not list: nothing the model knows (R38). Log 19. -/
def Memory.unlisted : Option Byte := none

/-- The byte at an address. -/
def Memory.read : Memory → Word → Option Byte
  | [], _ => Memory.unlisted
  | (a, b) :: rest, x => if a = x.toNat then some b else Memory.read rest x

/-- List a byte at an address, keeping the addresses rising. No instruction does this (R43): a load before a run does. -/
def Memory.write : Memory → Word → Byte → Memory
  | [], x, v => [(x.toNat, v)]
  | (a, b) :: rest, x, v =>
      if x.toNat < a then (x.toNat, v) :: (a, b) :: rest
      else if x.toNat = a then (a, v) :: rest
      else (a, b) :: Memory.write rest x v

/-- The addresses from `low` on are strictly rising and below 2^32. -/
def Memory.wfFrom : Nat → Memory → Bool
  | _, [] => true
  | low, (a, _) :: rest => decide (low ≤ a) && decide (a < 2 ^ 32) && Memory.wfFrom (a + 1) rest

/-- The canonical form: addresses strictly rising, each a 32-bit address (R38). -/
def Memory.wf (m : Memory) : Bool := Memory.wfFrom 0 m

/-- List bytes at rising addresses from `x` on. -/
def Memory.load : Memory → Word → List Byte → Memory
  | m, _, [] => m
  | m, x, b :: rest => Memory.load (Memory.write m x b) (x + 1) rest

/-! ### Fetch -/

/-- The pc is a multiple of 4 in A32 and of 2 in T32 (R41). -/
def State.pcAligned (s : State) : Bool :=
  match s.iset with
  | .A32 => s.pc.extractLsb' 0 2 == 0b00#2
  | .T32 => s.pc.extractLsb' 0 1 == 0b0#1

/-- The bytes at pc, pc+1, pc+2, pc+3; none where one is missing or the four would wrap (R39). -/
def State.fetch (s : State) : Option (List Byte) :=
  if 2 ^ 32 ≤ s.pc.toNat + 3 then none
  else
    match s.params.prog.read s.pc, s.params.prog.read (s.pc + 1), s.params.prog.read (s.pc + 2),
      s.params.prog.read (s.pc + 3) with
    | some b0, some b1, some b2, some b3 => some [b0, b1, b2, b3]
    | _, _, _, _ => none

/-! ### Completing and taking an exception -/

/-- `pc <- (pc + 4) mod 2^32`, and the next step index (R27, R107). -/
def State.advance (s : State) : State := { s with pc := s.pc + 4, k := s.k + 1 }

/-- `raise` (R18): the step ends in a fault and writes nothing. The spec describes no entry into a handler, so there is
no saved register to write and no return (R98). Log 11. -/
def raiseException (f : Fault) : StepOutcome := .fault f

/-- The Undefined Instruction exception of an instruction, with the pc and the instruction word (R89). -/
def raiseUndefined (i : Instr) (s : State) : StepOutcome :=
  raiseException (.undefinedInstruction s.pc (encodeWord i))

/-- The trap to Hyp mode (R93). -/
def raiseHypTrap (s : State) : StepOutcome := raiseException (.hypTrap s.pc)

end Sys2Proof.Machine
end

