-- ==== Sys2Proof/Machine/Operands.lean ====
section
/-! DEFINITION. The operands of the operation pseudocode: the element size, the Q-register number, and `Elem`. -/

namespace Sys2Proof.Machine

/-- `esize = 8 << UInt(size)` (R55, R76). -/
def esize (size : BitVec 2) : Nat := 8 <<< size.toNat

/-- `d >> 1`, the number of the 128-bit name (R23). -/
def quadOf (d : DNum) : QNum := d.extractLsb' 1 4

/-- `Elem[v, e, size]`, bits `(e+1)*size-1 : e*size` (R11). Log 14. -/
def elem {n : Nat} (v : BitVec n) (e size : Nat) : BitVec size := v.extractLsb' (e * size) size

/-- The bits of element `e`. -/
def elemMask (n e size : Nat) : BitVec n := (BitVec.allOnes size).setWidth n <<< (e * size)

/-- `Elem[v, e, size] = x`: exactly those bits replaced (R11). Log 14. -/
def setElem {n : Nat} (v : BitVec n) (e size : Nat) (x : BitVec size) : BitVec n :=
  (v &&& ~~~ elemMask n e size) ||| (x.setWidth n <<< (e * size))

end Sys2Proof.Machine
end

