-- ==== Sys2Proof/Machine/Flags.lean ====
section
/-! DEFINITION. VZIP computes no flag (R83). What the flags, the control registers and the mode decide is whether it
runs: the three guards of the operation, in their order (R90 to R95). -/

namespace Sys2Proof.Machine

/-- `cond_passed(k)` (R90): the listed result of step k, `true` past the list's end. Log 8. -/
def condResult (results : List Bool) (k : Nat) : Bool := results.getD k true

/-- `ConditionPassed()` (R90): true in A32; in T32 the run's result for this step. Logs 8, 29. -/
def State.conditionPassed (s : State) : Bool :=
  match s.iset with
  | .A32 => true
  | .T32 => condResult s.params.condPassed s.k

/-- `CheckAdvSIMDEnabled()` (R92): a constant of the run. Log 9. -/
def State.checkAdvSIMDEnabled (s : State) : AdvSimdCheck := s.params.advsimdCheck

/-- The whole execution of an instruction around its operation: the condition check, the UNDEFINED checks of the
decode, the enable check, then the operation and the advance of the pc (R78, R91, R95, R107 lines 6 to 11). -/
def guarded (i : Instr) (operation : State → State) (s : State) : StepOutcome :=
  if s.conditionPassed then
    if i.undef then raiseUndefined i s
    else
      match s.checkAdvSIMDEnabled with
      | .enabled => .next (operation s).advance
      | .undefined => raiseUndefined i s
      | .hypTrap => raiseHypTrap s
  else if i.undef && s.params.undefWhenCondFails then raiseUndefined i s
  else .next s.advance

end Sys2Proof.Machine
end

