-- ==== Sys2Proof/Machine/Vzip.lean ====
section
/-! DEFINITION. The operation of VZIP (R78, R80, R81) and the meaning of its four encodings (R84 to R87). -/

namespace Sys2Proof.Machine

/-- The `for` loop of the operation for e = 0 to n - 1, on the vectors `a` and `b` and a temporary `z` (R78, R80). -/
def zipLoop {w : Nat} (esize : Nat) (a b : BitVec w) : Nat → BitVec (2 * w) → BitVec (2 * w)
  | 0, z => z
  | e + 1, z =>
      setElem (setElem (zipLoop esize a b e z) (2 * e) esize (elem a e esize)) (2 * e + 1) esize (elem b e esize)

/-- `zipped_d` or `zipped_q` after the loop. The content the temporary starts with is not specified and never reaches a
register (R16, R79); the model starts it at zero. Log 18. -/
def zipped {w : Nat} (esize : Nat) (a b : BitVec w) : BitVec (2 * w) := zipLoop esize a b (w / esize) 0

/-- The new content of the first register: the lower half of the interleaving (R80). -/
def zipLow {w : Nat} (esize : Nat) (a b : BitVec w) : BitVec w := (zipped esize a b).extractLsb' 0 w

/-- The new content of the second register: the upper half of the interleaving (R80). -/
def zipHigh {w : Nat} (esize : Nat) (a b : BitVec w) : BitVec w := (zipped esize a b).extractLsb' w w

/-- The 64-bit operation (R80, and R81 where the registers are the same). -/
def vzipD (size : BitVec 2) (d m : DNum) (s : State) : State :=
  if d = m then s.writeD d (Config.unknown64 s.k)
  else
    (s.writeD d (zipLow (esize size) (s.readD d) (s.readD m))).writeD m
      (zipHigh (esize size) (s.readD d) (s.readD m))

/-- The 128-bit operation on Q[d>>1] and Q[m>>1] (R80, and R81 where the registers are the same). -/
def vzipQ (size : BitVec 2) (d m : DNum) (s : State) : State :=
  if d = m then s.writeQ (quadOf d) (Config.unknown128 s.k)
  else
    (s.writeQ (quadOf d) (zipLow (esize size) (s.readQ (quadOf d)) (s.readQ (quadOf m)))).writeQ (quadOf m)
      (zipHigh (esize size) (s.readQ (quadOf d)) (s.readQ (quadOf m)))

/-- VZIP_A1_D (R84). -/
def execVzipA1D (size : BitVec 2) (d m : DNum) (s : State) : StepOutcome :=
  guarded (.vzipA1D size d m) (vzipD size d m) s

/-- VZIP_A1_Q (R85). -/
def execVzipA1Q (size : BitVec 2) (d m : DNum) (s : State) : StepOutcome :=
  guarded (.vzipA1Q size d m) (vzipQ size d m) s

/-- VZIP_T1_D (R86). -/
def execVzipT1D (size : BitVec 2) (d m : DNum) (s : State) : StepOutcome :=
  guarded (.vzipT1D size d m) (vzipD size d m) s

/-- VZIP_T1_Q (R87). -/
def execVzipT1Q (size : BitVec 2) (d m : DNum) (s : State) : StepOutcome :=
  guarded (.vzipT1Q size d m) (vzipQ size d m) s

end Sys2Proof.Machine
end

