-- ==== Sys2Proof/Machine/Dispatch.lean ====
section
/-! DEFINITION. One arm per row of the opcode table. -/

namespace Sys2Proof.Machine

def exec (i : Instr) (s : State) : Host.Outcome State Fault Refusal :=
  match i with
  | .vzipA1D size d m => Sys2Proof.Machine.execVzipA1D size d m s
  | .vzipA1Q size d m => Sys2Proof.Machine.execVzipA1Q size d m s
  | .vzipT1D size d m => Sys2Proof.Machine.execVzipT1D size d m s
  | .vzipT1Q size d m => Sys2Proof.Machine.execVzipT1Q size d m s

end Sys2Proof.Machine
end

