-- ==== Sys2Proof/Machine/Step.lean ====
section
/-! DEFINITION. One step (R107), and the load of one instruction where the next step fetches it. -/

namespace Sys2Proof.Machine

/-- One step: alignment (R41), fetch (R39), byte order and match (R40, R56, R57), then the instruction. A fetch gives
four bytes, so the decoder never runs out of them. -/
def step (s : State) : Host.Outcome State Fault Refusal :=
  if s.pcAligned then
    match s.fetch with
    | none => .refused .fetchOutsideProgram
    | some bytes =>
      match decode s.iset bytes with
      | .ok i _ => exec i s
      | .notVZIP => .refused .notVZIP
      | .truncated => .refused .fetchOutsideProgram
  else .refused .misalignedPc

/-- The state with a table word stored at the pc, in the byte order of the instruction set whose row it is, and that
instruction set selected. Log 20. -/
def State.withFetchWord (s : State) (nbits w : Nat) : State :=
  let word := tableWord nbits w
  { s with
    iset := tableIset word
    params := { s.params with prog := s.params.prog.load s.pc (bytesOf (tableIset word) word) } }

end Sys2Proof.Machine
end

