-- ==== Sys2Proof/Machine/Assembler.lean ====
section
/-! DEFINITION. The assembler's text of VZIP (R62 to R71): from an assembler line to the instruction, from the
instruction to its assembler line, and how a line is spelt. -/

namespace Sys2Proof.Machine

/-- The field `size` of a data type (R64). -/
def sizeOfDataType : DataType → BitVec 2
  | .dt8 => 0b00#2
  | .dt16 => 0b01#2
  | .dt32 => 0b10#2

/-- The data type of a field `size`; 11 has none (R64). -/
def dataTypeOfSize (size : BitVec 2) : Option DataType :=
  if size = 0b00#2 then some .dt8
  else if size = 0b01#2 then some .dt16
  else if size = 0b10#2 then some .dt32
  else none

/-- An A32 line has no condition or one that means always; a T32 line may have any (R65). -/
def conditionAllowed (iset : Iset) (c : Option Cond) : Bool :=
  match iset, c with
  | .T32, _ => true
  | .A32, none => true
  | .A32, some c => c == .al

/-- The instruction of a 64-bit template (R62, R67). -/
def buildDouble (iset : Iset) (size : BitVec 2) (d m : DNum) : Instr :=
  match iset with
  | .A32 => .vzipA1D size d m
  | .T32 => .vzipT1D size d m

/-- The instruction of a 128-bit template (R63, R68). -/
def buildQuad (iset : Iset) (size : BitVec 2) (d m : DNum) : Instr :=
  match iset with
  | .A32 => .vzipA1Q size d m
  | .T32 => .vzipT1Q size d m

/-- `<Qd>*2`, the field `D:Vd` of a Q register (R68). -/
def twice (i : QNum) : DNum := i ++ 0#1

/-- From an assembler line to the instruction (R62 to R70). The condition and the qualifier select no bit of the word.
There is no 64-bit line with 32-bit elements (R64, R69). -/
def assemble (a : AsmLine) : Option Instr :=
  if conditionAllowed a.iset a.c then
    match a.regs with
    | .doubles i j =>
        if a.dt = .dt32 then none else some (buildDouble a.iset (sizeOfDataType a.dt) i j)
    | .quads i j => some (buildQuad a.iset (sizeOfDataType a.dt) (twice i) (twice j))
  else none

/-- The register operands of an instruction (R71): `D<d>`, `D<m>` or `Q<d/2>`, `Q<m/2>`. -/
def registersOf (i : Instr) : AsmRegs :=
  if i.q = 0#1 then .doubles i.d i.m else .quads (i.d.extractLsb' 1 4) (i.m.extractLsb' 1 4)

/-- From the instruction to its assembler line, with no condition and no qualifier written; an UNDEFINED encoding has
no assembler text (R71). -/
def disassemble (i : Instr) : Option AsmLine :=
  if i.undef then none
  else
    (dataTypeOfSize i.size).map fun dt =>
      { iset := i.iset, c := none, wide := false, dt := dt, regs := registersOf i }

/-- How a condition is spelt (R65; PRESUMED, log 25: the spec's G19). -/
def condText : Cond → String
  | .eq => "EQ"
  | .ne => "NE"
  | .cs => "CS"
  | .cc => "CC"
  | .mi => "MI"
  | .pl => "PL"
  | .vs => "VS"
  | .vc => "VC"
  | .hi => "HI"
  | .ls => "LS"
  | .ge => "GE"
  | .lt => "LT"
  | .gt => "GT"
  | .le => "LE"
  | .al => "AL"

/-- How a data type is spelt (R64). -/
def dataTypeText : DataType → String
  | .dt8 => "8"
  | .dt16 => "16"
  | .dt32 => "32"

/-- How the registers are spelt (R62, R63, R71; PRESUMED, log 25: the spec's G11). -/
def registersText : AsmRegs → String
  | .doubles i j => "D" ++ toString i.toNat ++ ", D" ++ toString j.toNat
  | .quads i j => "Q" ++ toString i.toNat ++ ", Q" ++ toString j.toNat

/-- How a condition field is spelt: nothing where it is not written. -/
def conditionText : Option Cond → String
  | none => ""
  | some c => condText c

/-- The text of a line, from the templates of R62 and R63. -/
def asmText (a : AsmLine) : String :=
  "VZIP" ++ conditionText a.c ++ (if a.wide then ".W" else "") ++ "." ++ dataTypeText a.dt ++ " "
    ++ registersText a.regs

end Sys2Proof.Machine
end

