-- ==== Sys2Proof/Machine/Run.lean ====
section
/-! DEFINITION. The launch (R105) and the end of a run (R108). -/

namespace Sys2Proof.Machine

/-- How a run stands after a number of steps (R108). -/
inductive RunResult where
  /-- The pc reached `end_pc`; the final state. -/
  | finished (s : State)
  /-- A step faulted in this state; not a final state. -/
  | faulted (s : State) (r : Fault)
  /-- A step was refused in this state; nothing may be concluded. -/
  | refused (s : State) (r : Refusal)
  /-- The steps asked for are used up. -/
  | running (s : State)
  deriving DecidableEq, Repr

/-- The launch state of a launch record (R105): `pc = start_pc`, k = 0 (R108). -/
def State.launch (params : Params) (sys : SystemState) (iset : Iset) (startPc : Word)
    (dregs : Vector Doubleword 32) : State :=
  { dregs := dregs, pc := startPc, iset := iset, k := 0, params := params, sys := sys }

/-- The test made before the fetch (R108). -/
def State.atEnd (s : State) : Bool := s.pc == s.params.endPc

/-- At most the given number of steps of a run (R108). -/
def runToEnd : Nat → State → RunResult
  | 0, s => if s.atEnd then .finished s else .running s
  | n + 1, s =>
      if s.atEnd then .finished s
      else
        match step s with
        | .next t => runToEnd n t
        | .fault r => .faulted s r
        | .refused r => .refused s r

/-- The state a run stands in. -/
def RunResult.state : RunResult → State
  | .finished s => s
  | .faulted s _ => s
  | .refused s _ => s
  | .running s => s

end Sys2Proof.Machine
end

