-- ==== Sys2Proof/Safety.lean ====
section
/-! DEFINITION. What counts as a safe run: the launch premises of a completion claim (R105), a run that finishes
(R108), and the invariant every step keeps. -/

namespace Sys2Proof.Machine

/-- The program text is in canonical form (R38) and the pc is aligned for the instruction set (R41). -/
abbrev State.Inv (s : State) : Prop := s.params.prog.wf = true ∧ s.pcAligned = true

/-- The premises a completion claim for n instructions needs (R105): the end is n words on, the pc is aligned, the text
is listed from the first byte to the last with no wrap, and the enable check answers Enabled. -/
def State.LaunchPremises (s : State) (n : Nat) : Prop :=
  s.k = 0 ∧ s.pcAligned = true ∧ s.pc.toNat + 4 * n < 2 ^ 32 ∧ s.params.endPc.toNat = s.pc.toNat + 4 * n ∧
    s.params.advsimdCheck = .enabled ∧
    ∀ a : Word, s.pc.toNat ≤ a.toNat → a.toNat < s.params.endPc.toNat → (s.params.prog.read a).isSome = true

/-- A safe run: it neither faults nor is refused, and it finishes within n steps (R108). -/
def State.SafeRun (s : State) (n : Nat) : Prop := ∃ t, runToEnd n s = .finished t

end Sys2Proof.Machine
end

