-- ==== Sys2Proof/Certificates/Slice0/Obligations.lean ====
section
/-! DEFINITION. The statements for the provers. Most of the spec's rules about the machine around VZIP are marked there
as the spec's own decisions (D<n> of 92_eei_decisions.md), as general knowledge (G<n>) or as derived; a statement that
rests on one says so and is listed as derived. -/

namespace Sys2Proof.Claims

open Sys2Proof Sys2Proof.Machine

/-- `a'` and `b'` are the lower and the upper half of the interleaving of `a` and `b` in elements of `size` bits, element by
element (R82; the place of element 0 is R11's, general knowledge G5, log 14). -/
def Interleaved {w : Nat} (size : Nat) (a b a' b' : BitVec w) : Prop :=
  ∀ j < w / size,
    a'.extractLsb' (j * size) size =
        (if j % 2 = 0 then a.extractLsb' (j / 2 * size) size else b.extractLsb' ((j - 1) / 2 * size) size) ∧
      b'.extractLsb' (j * size) size =
        (if j % 2 = 0 then a.extractLsb' ((w / size / 2 + j / 2) * size) size
          else b.extractLsb' ((w / size / 2 + (j - 1) / 2) * size) size)

/-- The 128-bit content of an even register number and the next one (R24). -/
def quadAt (s : State) (d : DNum) : Quadword := s.readD (d + 1) ++ s.readD d

/-- Every D register outside the operands is unchanged: outside D[d], D[m] where Q is 0, outside D[d], D[d+1], D[m], D[m+1]
where it is 1 (R33). -/
def OthersUnchanged (q : BitVec 1) (d m : DNum) (s t : State) : Prop :=
  ∀ r : DNum, r ≠ d → r ≠ m → (q = 1#1 → r ≠ d + 1 ∧ r ≠ m + 1) → t.readD r = s.readD r

/-- A completed step advances the pc by 4 and the step index by 1; the instruction set, every byte of program text, every
parameter, every flag and every named system register is as before (R27, R28, R33). -/
def Completed (s t : State) : Prop :=
  t.pc = s.pc + 4 ∧ t.k = s.k + 1 ∧ t.iset = s.iset ∧ t.params = s.params ∧ t.sys = s.sys ∧
    ∀ a : Word, t.params.prog.read a = s.params.prog.read a

/-- What the operation leaves in the registers: the interleaving in the two operands, or, where they are the same register,
nothing said of it (R80 to R82), and every other register as before. -/
def OperationDone (q : BitVec 1) (size : BitVec 2) (d m : DNum) (s t : State) : Prop :=
  OthersUnchanged q d m s t ∧
    (d ≠ m → q = 0#1 →
      Interleaved (8 * 2 ^ size.toNat) (s.readD d) (s.readD m) (t.readD d) (t.readD m)) ∧
    (d ≠ m → q = 1#1 →
      Interleaved (8 * 2 ^ size.toNat) (quadAt s d) (quadAt s m) (quadAt t d) (quadAt t m))

/-- The number of field values (size, D:Vd, M:Vm) of one bit Q that satisfy a test. -/
def countFields (p : BitVec 2 → DNum → DNum → Bool) : Nat :=
  (List.range 4).foldl (fun n z =>
    n + (List.range 32).foldl (fun n d =>
      n + (List.range 32).countP fun m => p (BitVec.ofNat 2 z) (BitVec.ofNat 5 d) (BitVec.ofNat 5 m)) 0) 0

/-- Replace the next state of an outcome, leaving a fault or a refusal. -/
def mapNext (f : State → State) : StepOutcome → StepOutcome
  | .next t => .next (f t)
  | .fault r => .fault r
  | .refused r => .refused r

/-- The two registers after the same interleaving a number of times. -/
def repeated {w : Nat} (size : Nat) : Nat → BitVec w × BitVec w → BitVec w × BitVec w
  | 0, p => p
  | n + 1, p => repeated size n (zipLow size p.1 p.2, zipHigh size p.1 p.2)

/-- The elements of a vector, element 0 first. -/
def elements {w : Nat} (size : Nat) (v : BitVec w) : List (BitVec size) :=
  (List.range (w / size)).map fun e => v.extractLsb' (e * size) size

/-- The legal pairs of register width and element size (R76). -/
def legalShapes : List (Nat × Nat) := [(64, 8), (64, 16), (128, 8), (128, 16), (128, 32)]

end Sys2Proof.Claims

open Sys2Proof Sys2Proof.Machine Sys2Proof.Claims

/-! ### Encoding -/

/-- Decoding an encoded instruction gives it back, with every operand at every value the encoding admits, UNDEFINED ones
among them, and leaves the bytes after it (R40, R52, R53, R55, R56; byte order: decision D4, log 13). -/
def Obligations.DecodeEncodeAgree : Prop :=
  ∀ (i : Instr) (rest : List Byte), decode i.iset (encode i ++ rest) = .ok i rest

/-- Bytes that decode to an instruction are that instruction's encoding: no bit of a VZIP word is ignored (R52, R53, R56). -/
def Obligations.EncodeDecodeAgree : Prop :=
  ∀ (iset : Iset) (bytes rest : List Byte) (i : Instr),
    decode iset bytes = .ok i rest → i.iset = iset ∧ bytes = encode i ++ rest

/-- Words written out from the formats: `VZIP.8 D0, D1` and `VZIP.16 D31, D0` (A1), `VZIP.32 Q8, Q15` (A1 and T1),
`VZIP.8 D17, D16` (T1) (R52, R53, R70). -/
def Obligations.SpecWordsDecode : Prop :=
  decode .A32 [0x81, 0x01, 0xB2, 0xF3] = .ok (.vzipA1D 0 0 1) [] ∧
  decode .A32 [0x80, 0xF1, 0xF6, 0xF3] = .ok (.vzipA1D 1 31 0) [] ∧
  decode .A32 [0xEE, 0x01, 0xFA, 0xF3] = .ok (.vzipA1Q 2 16 30) [] ∧
  decode .T32 [0xFA, 0xFF, 0xEE, 0x01] = .ok (.vzipT1Q 2 16 30) [] ∧
  decode .T32 [0xF2, 0xFF, 0xA0, 0x11] = .ok (.vzipT1D 0 17 16) []

/-- At most one row of the opcode map matches any instruction set and word (R56). -/
def Obligations.AtMostOneRowMatches : Prop :=
  ∀ (e f : Encoding) (iset : Iset) (w : Word), e.holds iset w = true → f.holds iset w = true → e = f

/-- The operand fields of every decoded word, in both classes: d = 16*D + UInt(Vd), m = 16*M + UInt(Vm), esize = 8 << UInt(size),
and the quadword form exactly where Q is 1; there the operation's registers are Q[d>>1] and Q[m>>1], and the assembler's registers are
the ones whose numbers doubled are d and m (R55). -/
def Obligations.OperandFieldsAssembled : Prop :=
  ∀ (iset : Iset) (w : Word) (i : Instr), decodeWord iset w = some i →
    i.d.toNat = 16 * (w.extractLsb' 22 1).toNat + (w.extractLsb' 12 4).toNat ∧
    i.m.toNat = 16 * (w.extractLsb' 5 1).toNat + (w.extractLsb' 0 4).toNat ∧
    i.size = w.extractLsb' 18 2 ∧ esize i.size = 8 * 2 ^ (w.extractLsb' 18 2).toNat ∧
    ((i = .vzipA1Q i.size i.d i.m ∨ i = .vzipT1Q i.size i.d i.m) ↔ w.extractLsb' 6 1 = 1#1) ∧
    (quadOf i.d).toNat = i.d.toNat / 2 ∧ (quadOf i.m).toNat = i.m.toNat / 2 ∧
    ∀ (a : AsmLine) (x y : QNum), disassemble i = some a → a.regs = .quads x y →
      i.d.toNat = 2 * x.toNat ∧ i.m.toNat = 2 * y.toNat

/-- Every bit of an encoded word, from bit 31 down: the constants and fields of the A1 and the T1 format (R52, R53). -/
def Obligations.FormatBits : Prop :=
  ∀ i : Instr,
    (encodeWord i).extractLsb' 23 9 = (if i.iset = .A32 then 0b111100111#9 else 0b111111111#9) ∧
    (encodeWord i).extractLsb' 22 1 = i.d.extractLsb' 4 1 ∧ (encodeWord i).extractLsb' 20 2 = 0b11#2 ∧
    (encodeWord i).extractLsb' 18 2 = i.size ∧ (encodeWord i).extractLsb' 16 2 = 0b10#2 ∧
    (encodeWord i).extractLsb' 12 4 = i.d.extractLsb' 0 4 ∧ (encodeWord i).extractLsb' 11 1 = 0#1 ∧
    (encodeWord i).extractLsb' 7 4 = 0b0011#4 ∧ (encodeWord i).extractLsb' 6 1 = i.q ∧
    (encodeWord i).extractLsb' 5 1 = i.m.extractLsb' 4 1 ∧ (encodeWord i).extractLsb' 4 1 = 0#1 ∧
    (encodeWord i).extractLsb' 0 4 = i.m.extractLsb' 0 4

/-- The T1 word is the A1 word with bits 27 and 26 set, and the A1 word is the T1 word with them clear (R59). -/
def Obligations.T1WordFromA1Word : Prop :=
  ∀ (size : BitVec 2) (d m : DNum),
    encodeWord (.vzipT1D size d m) = encodeWord (.vzipA1D size d m) ||| 0x0C000000#32 ∧
    encodeWord (.vzipT1Q size d m) = encodeWord (.vzipA1Q size d m) ||| 0x0C000000#32 ∧
    encodeWord (.vzipA1D size d m) = encodeWord (.vzipT1D size d m) &&& 0xF3FFFFFF#32 ∧
    encodeWord (.vzipA1Q size d m) = encodeWord (.vzipT1Q size d m) &&& 0xF3FFFFFF#32

/-- How many field values have a defined result, leave an UNKNOWN value, and are UNDEFINED, in the 64-bit and in the 128-bit
variant (R61). -/
def Obligations.EncodingCensus : Prop :=
  countFields (fun z d m => !undefinedFields 0#1 z d m && d != m) = 1984 ∧
  countFields (fun z d m => !undefinedFields 0#1 z d m && d == m) = 64 ∧
  countFields (undefinedFields 0#1) = 2048 ∧
  countFields (fun z d m => !undefinedFields 1#1 z d m && d != m) = 720 ∧
  countFields (fun z d m => !undefinedFields 1#1 z d m && d == m) = 48 ∧
  countFields (undefinedFields 1#1) = 2304 + 1024

/-- In T32 bytes whose first halfword is none of the eight VZIP ones are not VZIP, whatever follows (R54, R60). -/
def Obligations.OtherFirstHalfwordsRejected : Prop :=
  ∀ (b0 b1 : Byte) (rest : List Byte),
    (b1 ++ b0 : BitVec (8 + 8)) ∉ [0xFFB2#16, 0xFFB6#16, 0xFFBA#16, 0xFFBE#16, 0xFFF2#16, 0xFFF6#16, 0xFFFA#16, 0xFFFE#16] →
    decode .T32 (b0 :: b1 :: rest) = .notVZIP

/-- From an assembler line with no condition to the word: the two formulas of R70, for each class. A 64-bit line with 32-bit
elements has no word (R64, R69). -/
def Obligations.AssemblyGivesWord : Prop :=
  ∀ (iset : Iset) (wide : Bool) (dt : DataType),
    let top : Nat := if iset = .A32 then 0xF3800000 else 0xFF800000
    let sz : Nat := match dt with | .dt8 => 0 | .dt16 => 1 | .dt32 => 2
    (∀ i j : DNum, dt ≠ .dt32 → ∃ x, assemble ⟨iset, none, wide, dt, .doubles i j⟩ = some x ∧ x.iset = iset ∧
      (encodeWord x).toNat = top + (i.toNat / 16) * 2 ^ 22 + 3 * 2 ^ 20 + sz * 2 ^ 18 + 2 * 2 ^ 16 +
        (i.toNat % 16) * 2 ^ 12 + 3 * 2 ^ 7 + (j.toNat / 16) * 2 ^ 5 + j.toNat % 16) ∧
    (∀ i j : DNum, assemble ⟨iset, none, wide, .dt32, .doubles i j⟩ = none) ∧
    (∀ i j : QNum, ∃ x, assemble ⟨iset, none, wide, dt, .quads i j⟩ = some x ∧ x.iset = iset ∧
      (encodeWord x).toNat = top + (i.toNat / 8) * 2 ^ 22 + 3 * 2 ^ 20 + sz * 2 ^ 18 + 2 * 2 ^ 16 +
        (2 * i.toNat % 16) * 2 ^ 12 + 3 * 2 ^ 7 + 1 * 2 ^ 6 + (j.toNat / 8) * 2 ^ 5 + 2 * j.toNat % 16)

/-- Every instruction that is not an UNDEFINED encoding has an assembler line, and assembling that line gives it back; an
UNDEFINED encoding has none (R71). -/
def Obligations.DisassembleThenAssemble : Prop :=
  ∀ i : Instr, (i.undef = true → disassemble i = none) ∧
    (i.undef = false → ∃ a, disassemble i = some a ∧ a.c = none ∧ assemble a = some i)

/-- A condition selects no bit of the word: an A1 line takes none but one that means always, a T1 line takes any (R65; the list
of conditions is the spec's G19, log 25). -/
def Obligations.ConditionIsNotEncoded : Prop :=
  ∀ (a : AsmLine) (c : Cond),
    (a.iset = .A32 → c ≠ .al → assemble { a with c := some c } = none) ∧
    (a.iset = .A32 → assemble { a with c := some .al } = assemble { a with c := none }) ∧
    (a.iset = .T32 → assemble { a with c := some c } = assemble { a with c := none })

/-! ### Fetch and step -/

/-- A step runs the decoded instruction: where the pc is aligned and the bytes fetched there decode to an instruction, the step
is that instruction's execution and nothing more (R107). -/
def Obligations.StepRunsDecodedInstruction : Prop :=
  ∀ (s : State) (bytes rest : List Byte) (i : Instr), s.pcAligned = true → s.fetch = some bytes →
    decode s.iset bytes = .ok i rest → step s = exec i s

/-- A misaligned pc is refused, and a run that starts aligned stays aligned (R41; decision D5, log 12). -/
def Obligations.MisalignedPcRefused : Prop :=
  ∀ s : State,
    (s.iset = .A32 → s.pc.toNat % 4 ≠ 0 → step s = .refused .misalignedPc) ∧
    (s.iset = .T32 → s.pc.toNat % 2 ≠ 0 → step s = .refused .misalignedPc) ∧
    (∀ t, step s = .next t →
      (s.iset = .A32 → s.pc.toNat % 4 = 0 ∧ t.pc.toNat % 4 = 0) ∧
      (s.iset = .T32 → s.pc.toNat % 2 = 0 ∧ t.pc.toNat % 2 = 0))

/-- A fetch with a byte missing from the program text, or that would wrap, is refused (R39; decision D6, log 12). -/
def Obligations.FetchOutsideProgramRefused : Prop :=
  ∀ s : State, s.pcAligned = true →
    (2 ^ 32 ≤ s.pc.toNat + 3 → step s = .refused .fetchOutsideProgram) ∧
    (∀ i < 4, s.params.prog.read (s.pc + BitVec.ofNat 32 i) = none → step s = .refused .fetchOutsideProgram)

/-- The four bytes at an aligned pc are read as one little-endian word in A32 and as two little-endian halfwords, the first at
the lower address, in T32; the step runs the instruction that word is, and refuses a word that matches no row (R40, R57;
decisions D1 and D4, logs 12 and 13). -/
def Obligations.FetchedWordRuns : Prop :=
  ∀ (s : State) (b0 b1 b2 b3 : Byte), s.pcAligned = true → s.pc.toNat + 3 < 2 ^ 32 →
    s.params.prog.read s.pc = some b0 → s.params.prog.read (s.pc + 1) = some b1 →
    s.params.prog.read (s.pc + 2) = some b2 → s.params.prog.read (s.pc + 3) = some b3 →
    let w : Word := if s.iset = .A32 then (b3 ++ b2 ++ b1 ++ b0 : BitVec (8 + 8 + 8 + 8)) else (b1 ++ b0 ++ b3 ++ b2 : BitVec (8 + 8 + 8 + 8))
    (∀ i, decodeWord s.iset w = some i → step s = exec i s) ∧
    ((w &&& 0xFFB30F90#32) ≠ (if s.iset = .A32 then 0xF3B20180#32 else 0xFFB20180#32) → step s = .refused .notVZIP)

/-- The load of an instruction's word at an aligned pc makes the next step run exactly that instruction (the model's own load,
log 20; R107). -/
def Obligations.LoadedInstructionRunsNext : Prop :=
  ∀ (s : State) (i : Instr), s.pc.toNat % 4 = 0 →
    decodeTableWord 32 (encodeWord i).toNat = some i ∧
    (s.withFetchWord 32 (encodeWord i).toNat).pc = s.pc ∧
    step (s.withFetchWord 32 (encodeWord i).toNat) = exec i (s.withFetchWord 32 (encodeWord i).toNat)

/-! ### The guards -/

/-- Which outcome a step reports when several apply, in the order of R95: the refusals of fetch and match, the condition check, the
decode checks, the enable check, then the operation. The order is R95's. The refusals are the model's own (decisions D1, D5 and D6, log 12);
the condition check and the enable check as parameters are decisions D7 and D8 (logs 8 and 9); the fault of an UNDEFINED encoding whose
condition fails is decision D12 (log 10); the terminal faults and the pc and word they record are decisions D9 and D10 (log 11); the result
in the registers rests on the place of elements, general knowledge G5 (log 14), and on the halves of a Q register, decision D18 (log 15). -/
def Obligations.GuardOrder : Prop :=
  ∀ s : State,
    (s.pcAligned = false → step s = .refused .misalignedPc) ∧
    (s.pcAligned = true → s.fetch = none → step s = .refused .fetchOutsideProgram) ∧
    ∀ bytes, s.pcAligned = true → s.fetch = some bytes →
      (decode s.iset bytes = .notVZIP → step s = .refused .notVZIP) ∧
      ∀ i rest, decode s.iset bytes = .ok i rest →
        let undef : Prop := i.size = 0b11#2 ∨ (i.q = 0#1 ∧ i.size = 0b10#2) ∨
          (i.q = 1#1 ∧ (i.d.getLsbD 0 = true ∨ i.m.getLsbD 0 = true))
        (s.conditionPassed = false →
          (undef ∧ s.params.undefWhenCondFails = true → step s = .fault (.undefinedInstruction s.pc (encodeWord i))) ∧
          (¬ (undef ∧ s.params.undefWhenCondFails = true) →
            step s = .next { s with pc := s.pc + 4, k := s.k + 1 })) ∧
        (s.conditionPassed = true → undef → step s = .fault (.undefinedInstruction s.pc (encodeWord i))) ∧
        (s.conditionPassed = true → ¬ undef →
          (s.params.advsimdCheck = .undefined → step s = .fault (.undefinedInstruction s.pc (encodeWord i))) ∧
          (s.params.advsimdCheck = .hypTrap → step s = .fault (.hypTrap s.pc)) ∧
          (s.params.advsimdCheck = .enabled →
            ∃ t, step s = .next t ∧ Completed s t ∧ OperationDone i.q i.size i.d i.m s t))

/-- The UNDEFINED encodings, field value by field value, whatever the enable check would say, and no other field value is one:
every other completes when the check is Enabled, the same register named twice included. The field values are R77's; the pc and word the
fault records are decision D9 (log 11), and the condition check and the enable check as parameters are decisions D7 and D8 (logs 8 and 9). -/
def Obligations.UndefinedEncodingsFault : Prop :=
  ∀ (s : State) (size : BitVec 2) (d m : DNum), s.conditionPassed = true →
    (size = 0b11#2 ∨ size = 0b10#2 →
      exec (.vzipA1D size d m) s = .fault (.undefinedInstruction s.pc (encodeWord (.vzipA1D size d m))) ∧
      exec (.vzipT1D size d m) s = .fault (.undefinedInstruction s.pc (encodeWord (.vzipT1D size d m)))) ∧
    (size = 0b11#2 ∨ d.toNat % 2 = 1 ∨ m.toNat % 2 = 1 →
      exec (.vzipA1Q size d m) s = .fault (.undefinedInstruction s.pc (encodeWord (.vzipA1Q size d m))) ∧
      exec (.vzipT1Q size d m) s = .fault (.undefinedInstruction s.pc (encodeWord (.vzipT1Q size d m)))) ∧
    (s.params.advsimdCheck = .enabled → size ≠ 0b11#2 →
      (size ≠ 0b10#2 →
        (∃ t, exec (.vzipA1D size d m) s = .next t) ∧ ∃ t, exec (.vzipT1D size d m) s = .next t) ∧
      (d.toNat % 2 = 0 → m.toNat % 2 = 0 →
        (∃ t, exec (.vzipA1Q size d m) s = .next t) ∧ ∃ t, exec (.vzipT1Q size d m) s = .next t))

/-- The Advanced SIMD enable check on an encoding that is not UNDEFINED: Undefined and HypTrap fault with the pc of the instruction,
Enabled lets it complete (R89, R92, R93; decisions D8 to D10, logs 9 and 11). -/
def Obligations.EnableCheckDecides : Prop :=
  ∀ (i : Instr) (s : State), s.conditionPassed = true → i.wellFormed = true →
    (s.params.advsimdCheck = .undefined → exec i s = .fault (.undefinedInstruction s.pc (encodeWord i))) ∧
    (s.params.advsimdCheck = .hypTrap → exec i s = .fault (.hypTrap s.pc)) ∧
    (s.params.advsimdCheck = .enabled → ∃ t, exec i s = .next t)

/-- Where the condition check fails the instruction does nothing but advance, whatever the enable check would say; an UNDEFINED
encoding does so, or faults, as the parameter says (R90, R91; decisions D7 and D12, logs 8 and 10). -/
def Obligations.FailedConditionOnlyAdvances : Prop :=
  ∀ (i : Instr) (s : State), s.conditionPassed = false →
    (i.wellFormed = true → exec i s = .next { s with pc := s.pc + 4, k := s.k + 1 }) ∧
    (i.wellFormed = false → s.params.undefWhenCondFails = false →
      exec i s = .next { s with pc := s.pc + 4, k := s.k + 1 }) ∧
    (i.wellFormed = false → s.params.undefWhenCondFails = true →
      exec i s = .fault (.undefinedInstruction s.pc (encodeWord i)))

/-- The condition check passes in A32 at every step; in T32 it is the run's Boolean for this step, and any Boolean is some run's
(R90; decision D7, log 8). -/
def Obligations.ConditionCheckByInstructionSet : Prop :=
  ∀ s : State,
    (s.iset = .A32 → s.conditionPassed = true) ∧
    (s.iset = .T32 → ∀ b : Bool,
      s.conditionPassed = s.params.condPassed.getD s.k true ∧
      ({ s with params := { s.params with condPassed := List.replicate s.k true ++ [b] } } : State).conditionPassed = b)

/-- The synchronous exceptions of a VZIP and what raises each: the Undefined Instruction exception from the decode checks U1, U2, U3 or
from the enable check, the trap to Hyp mode from the enable check, each with the pc of the instruction; there is no other, none for the
same register named twice. Where the condition passes each cause raises its exception, the decode checks before the enable check. The causes
are R94's and their order is R95's; the terminal faults and the pc and word they record are decisions D9 and D10 (log 11), and the condition
check and the enable check as parameters are decisions D7 and D8 (logs 8 and 9). -/
def Obligations.OnlyTheListedFaults : Prop :=
  ∀ (i : Instr) (s : State),
    let decodeCheck : Prop := i.size = 0b11#2 ∨ (i.q = 0#1 ∧ i.size = 0b10#2) ∨
      (i.q = 1#1 ∧ (i.d.getLsbD 0 = true ∨ i.m.getLsbD 0 = true))
    (∀ f : Fault, exec i s = .fault f →
      (f = .undefinedInstruction s.pc (encodeWord i) ∧ (decodeCheck ∨ s.params.advsimdCheck = .undefined)) ∨
      (f = .hypTrap s.pc ∧ s.params.advsimdCheck = .hypTrap)) ∧
    (s.conditionPassed = true →
      (exec i s = .fault (.undefinedInstruction s.pc (encodeWord i)) ↔
        decodeCheck ∨ s.params.advsimdCheck = .undefined) ∧
      (exec i s = .fault (.hypTrap s.pc) ↔ ¬ decodeCheck ∧ s.params.advsimdCheck = .hypTrap))

/-! ### The operation -/

/-- VZIP of two different D registers, in both classes, with 8-bit or 16-bit elements: the instruction completes, the two registers
hold the interleaving element by element, and nothing else changes but the advance (R27, R33, R82, R84, R86; element order: G5,
log 14). -/
def Obligations.DoublewordVzipInterleaves : Prop :=
  ∀ (s : State) (size : BitVec 2) (d m : DNum), s.conditionPassed = true → s.params.advsimdCheck = .enabled →
    size = 0b00#2 ∨ size = 0b01#2 → d ≠ m →
    (∃ t, exec (.vzipA1D size d m) s = .next t ∧ Completed s t ∧ OthersUnchanged 0#1 d m s t ∧
      Interleaved (8 * 2 ^ size.toNat) (s.readD d) (s.readD m) (t.readD d) (t.readD m)) ∧
    (∃ t, exec (.vzipT1D size d m) s = .next t ∧ Completed s t ∧ OthersUnchanged 0#1 d m s t ∧
      Interleaved (8 * 2 ^ size.toNat) (s.readD d) (s.readD m) (t.readD d) (t.readD m))

/-- VZIP of two different Q registers, in both classes, with 8-bit, 16-bit or 32-bit elements: the instruction completes, the two
registers, each an even D register under the next one, hold the interleaving, and nothing else changes but the advance (R24, R27,
R33, R82, R85, R87; element order: G5, log 14; halves of a Q register: decision D18, log 15). -/
def Obligations.QuadwordVzipInterleaves : Prop :=
  ∀ (s : State) (size : BitVec 2) (d m : DNum), s.conditionPassed = true → s.params.advsimdCheck = .enabled →
    size ≠ 0b11#2 → d.toNat % 2 = 0 → m.toNat % 2 = 0 → d ≠ m →
    (∃ t, exec (.vzipA1Q size d m) s = .next t ∧ Completed s t ∧ OthersUnchanged 1#1 d m s t ∧
      Interleaved (8 * 2 ^ size.toNat) (quadAt s d) (quadAt s m) (quadAt t d) (quadAt t m)) ∧
    (∃ t, exec (.vzipT1Q size d m) s = .next t ∧ Completed s t ∧ OthersUnchanged 1#1 d m s t ∧
      Interleaved (8 * 2 ^ size.toNat) (quadAt s d) (quadAt s m) (quadAt t d) (quadAt t m))

/-- The same register named twice: the instruction completes and nothing changes but that register, of which nothing is said, and the
advance (R81; decision D11, log 7: the value written is free). -/
def Obligations.SameRegisterTwiceCompletes : Prop :=
  ∀ (s : State) (size : BitVec 2) (d : DNum), s.conditionPassed = true → s.params.advsimdCheck = .enabled →
    size ≠ 0b11#2 →
    (size ≠ 0b10#2 →
      (∃ t, exec (.vzipA1D size d d) s = .next t ∧ Completed s t ∧ OthersUnchanged 0#1 d d s t) ∧
      (∃ t, exec (.vzipT1D size d d) s = .next t ∧ Completed s t ∧ OthersUnchanged 0#1 d d s t)) ∧
    (d.toNat % 2 = 0 →
      (∃ t, exec (.vzipA1Q size d d) s = .next t ∧ Completed s t ∧ OthersUnchanged 1#1 d d s t) ∧
      (∃ t, exec (.vzipT1Q size d d) s = .next t ∧ Completed s t ∧ OthersUnchanged 1#1 d d s t))

/-- The operation as R80 writes it, on slices of a temporary Z of twice the width: Z's even elements are the first register's, its odd
elements the second's, and the two registers receive Z's lower and upper half, for D registers and for Q[d>>1], Q[m>>1]. -/
def Obligations.OperationWritesZippedSlices : Prop :=
  ∀ (s : State) (i : Instr), s.conditionPassed = true → s.params.advsimdCheck = .enabled → i.wellFormed = true → i.d ≠ i.m →
    ∃ t, exec i s = .next t ∧
      (i.q = 0#1 → ∃ z : BitVec 128,
        (∀ e < 64 / (8 * 2 ^ i.size.toNat),
          z.extractLsb' (2 * e * (8 * 2 ^ i.size.toNat)) (8 * 2 ^ i.size.toNat) =
            (s.readD i.d).extractLsb' (e * (8 * 2 ^ i.size.toNat)) (8 * 2 ^ i.size.toNat) ∧
          z.extractLsb' ((2 * e + 1) * (8 * 2 ^ i.size.toNat)) (8 * 2 ^ i.size.toNat) =
            (s.readD i.m).extractLsb' (e * (8 * 2 ^ i.size.toNat)) (8 * 2 ^ i.size.toNat)) ∧
        t.readD i.d = z.extractLsb' 0 64 ∧ t.readD i.m = z.extractLsb' 64 64 ∧
        ∀ r, r ≠ i.d → r ≠ i.m → t.readD r = s.readD r) ∧
      (i.q = 1#1 → ∃ z : BitVec 256,
        (∀ e < 128 / (8 * 2 ^ i.size.toNat),
          z.extractLsb' (2 * e * (8 * 2 ^ i.size.toNat)) (8 * 2 ^ i.size.toNat) =
            (s.readQ (quadOf i.d)).extractLsb' (e * (8 * 2 ^ i.size.toNat)) (8 * 2 ^ i.size.toNat) ∧
          z.extractLsb' ((2 * e + 1) * (8 * 2 ^ i.size.toNat)) (8 * 2 ^ i.size.toNat) =
            (s.readQ (quadOf i.m)).extractLsb' (e * (8 * 2 ^ i.size.toNat)) (8 * 2 ^ i.size.toNat)) ∧
        t.readQ (quadOf i.d) = z.extractLsb' 0 128 ∧ t.readQ (quadOf i.m) = z.extractLsb' 128 128 ∧
        ∀ n, n ≠ quadOf i.d → n ≠ quadOf i.m → t.readQ n = s.readQ n)

/-- What a completed VZIP leaves unchanged, for every encoding and operand: every register but its operands, the instruction set, every
byte of program text, every parameter, every flag and every named system register; the pc advances by 4 (R27, R28, R33, R83; decisions
D2, D3 and D6). -/
def Obligations.VzipFrame : Prop :=
  ∀ (i : Instr) (s t : State), exec i s = .next t → Completed s t ∧ OthersUnchanged i.q i.d i.m s t

/-- The loop writes every bit of its temporary: what the temporary held before never reaches a register (R79; log 18). -/
def Obligations.TemporaryContentUnobserved : Prop :=
  ∀ shape ∈ legalShapes, ∀ (a b : BitVec shape.1) (y z : BitVec (2 * shape.1)),
    zipLoop shape.2 a b (shape.1 / shape.2) y = zipLoop shape.2 a b (shape.1 / shape.2) z

/-- The elements of the two registers after the interleaving are the elements before it, each as often as before: every element is moved
bit for bit and none is lost or changed (R113). -/
def Obligations.ElementsConserved : Prop :=
  ∀ shape ∈ legalShapes, ∀ a b : BitVec shape.1,
    (elements shape.2 (zipLow shape.2 a b) ++ elements shape.2 (zipHigh shape.2 a b)).Perm
      (elements shape.2 a ++ elements shape.2 b)

/-- Repeating the same VZIP on the same two registers returns them to where they started after 4, 3, 5, 4 and 3 executions, and after no
smaller number for some contents (95_test_vectors.md section 2.4). -/
def Obligations.RepetitionRestoresRegisters : Prop :=
  ∀ entry ∈ [((64, 8), 4), ((64, 16), 3), ((128, 8), 5), ((128, 16), 4), ((128, 32), 3)],
    (∀ p : BitVec entry.1.1 × BitVec entry.1.1, repeated entry.1.2 entry.2 p = p) ∧
    ∃ p : BitVec entry.1.1 × BitVec entry.1.1, ∀ n < entry.2, 0 < n → repeated entry.1.2 n p ≠ p

/-- The element sizes and the number of elements of an encoding that is not UNDEFINED (R76). -/
def Obligations.ElementSizes : Prop :=
  esize 0b00#2 = 8 ∧ esize 0b01#2 = 16 ∧ esize 0b10#2 = 32 ∧ esize 0b11#2 = 64 ∧
  ∀ i : Instr, i.undef = false →
    (i.q = 0#1 → (esize i.size = 8 ∧ 64 / esize i.size = 8) ∨ (esize i.size = 16 ∧ 64 / esize i.size = 4)) ∧
    (i.q = 1#1 → (esize i.size = 8 ∧ 128 / esize i.size = 16) ∨ (esize i.size = 16 ∧ 128 / esize i.size = 8) ∨
      (esize i.size = 32 ∧ 128 / esize i.size = 4))

/-! ### Registers and system state -/

/-- Every one of the 32 registers holds what is written to it, and a write leaves the others: none is hardwired (R22; decision D19). -/
def Obligations.EveryRegisterHoldsWhatIsWritten : Prop :=
  ∀ (s : State) (n r : DNum) (v : Doubleword), (s.writeD n v).readD r = if r = n then v else s.readD r

/-- A Q register is the pair D[2n+1] : D[2n], read and written, with no storage of its own (R24; decision D18, log 15). -/
def Obligations.QuadRegistersAreDoublePairs : Prop :=
  ∀ (s : State) (n : QNum) (lo hi : DNum) (v : Quadword), lo.toNat = 2 * n.toNat → hi.toNat = 2 * n.toNat + 1 →
    s.readQ n = s.readD hi ++ s.readD lo ∧
    (s.writeQ n v).readD lo = v.extractLsb' 0 64 ∧ (s.writeQ n v).readD hi = v.extractLsb' 64 64 ∧
    ∀ r, r ≠ lo → r ≠ hi → (s.writeQ n v).readD r = s.readD r

/-- No result, fault, refusal or pc of a step depends on the flags, DIT, the control registers, the Security state or the mode but through
the parameters, and no step writes them (R30, R33, R111; held although R29 to R32 do not store them, log 6). The supply of free values
is the same on both sides. -/
def Obligations.SystemStateOnlyThroughParameters : Prop :=
  ∀ (s : State) (x : SystemState), step { s with sys := x } = mapNext (fun t => { t with sys := x }) (step s)

/-! ### Runs -/

/-- Every step keeps the invariant: the program text stays in canonical form and the pc stays aligned for the instruction set (R38, R41, R50;
decisions D5 and D6). -/
def Obligations.InvariantKeptByEveryStep : Prop :=
  ∀ s t : State, s.Inv → step s = .next t → t.Inv

/-- The launch state taken for reset meets the invariant (the model's own values, logs 2 to 4). -/
def Obligations.InvariantAtReset : Prop := State.reset.Inv

/-- The launch state of any launch record starts at its pc with k = 0 (R105, R108; decisions D13 and D24), and the state taken for reset has
the spec's defaults: every condition check passes in either instruction set at every step (R90), and `undef_when_cond_fails` is false (R91). -/
def Obligations.LaunchState : Prop :=
  (∀ (params : Params) (sys : SystemState) (iset : Iset) (startPc : Word) (dregs : Vector Doubleword 32),
    let s := State.launch params sys iset startPc dregs
    s.pc = startPc ∧ s.k = 0 ∧ s.iset = iset ∧ s.params = params ∧ ∀ n : DNum, s.readD n = dregs[n.toNat]) ∧
  State.reset.k = 0 ∧ State.reset.params.undefWhenCondFails = false ∧
  ∀ (iset : Iset) (k : Nat), ({ State.reset with iset := iset, k := k } : State).conditionPassed = true

/-- What decides the enable check, the condition checks, the end of the run and the program text is constant over a run, and so is the
instruction set (R28, R50, R92; decisions D3, D6 and D8). -/
def Obligations.RunConstants : Prop :=
  ∀ (n : Nat) (s : State),
    (runToEnd n s).state.params = s.params ∧ (runToEnd n s).state.iset = s.iset ∧ (runToEnd n s).state.sys = s.sys ∧
    ∀ a : Word, (runToEnd n s).state.params.prog.read a = s.params.prog.read a

/-- A run whose end is n words from its start takes exactly n steps if it finishes (R108; decision D24). -/
def Obligations.RunTakesOneStepPerWord : Prop :=
  ∀ (fuel n : Nat) (s t : State), n < 2 ^ 30 → s.params.endPc = s.pc + BitVec.ofNat 32 (4 * n) →
    runToEnd fuel s = .finished t → t.pc = s.params.endPc ∧ t.k = s.k + n ∧ Host.Core.run core n s = .next t

/-- Faults are precise: a run that faults stands in the state its completed steps left, and the step that faulted changed nothing of it
(R89, R93, R96). -/
def Obligations.FaultsArePrecise : Prop :=
  ∀ (fuel : Nat) (s t : State) (f : Fault), runToEnd fuel s = .faulted t f →
    ∃ n < fuel, Host.Core.run core n s = .next t ∧ step t = .fault f ∧ t.pc = s.pc + BitVec.ofNat 32 (4 * n)

/-- A run that meets the launch premises over text that holds only defined VZIP encodings finishes, in exactly the number of its words,
with neither fault nor refusal (R105, R108; decisions D8, D13 and D24). -/
def Obligations.DefinedTextRunsToItsEnd : Prop :=
  ∀ (n : Nat) (s : State), s.LaunchPremises n →
    (∀ j < n, ∃ bytes rest i, ({ s with pc := s.pc + BitVec.ofNat 32 (4 * j) } : State).fetch = some bytes ∧
      decode s.iset bytes = .ok i rest ∧ i.undef = false) →
    ∃ t, runToEnd n s = .finished t ∧ t.k = n ∧ t.pc = s.params.endPc
end

