-- ==== Sys2Proof/Laws/Decode.lean ====
section
/-! SUPPORT. Parts of a word put together from fields, the formats field by field, and the decoder row by row. -/

namespace Sys2Proof

/-! ### Parts of words -/

/-- A part of a placed field that starts at or above the field's place. -/
theorem extract_placeAt_above {n : Nat} (f : BitVec n) {lo a k : Nat} (h : lo ≤ a) (ha : a + k ≤ 32) :
    (placeAt f lo).extractLsb' a k = f.extractLsb' (a - lo) k := by
  apply BitVec.eq_of_getLsbD_eq
  intro i hi
  have h1 : a + i < 32 := by omega
  have h2 : ¬ a + i < lo := by omega
  have h3 : a + i - lo = a - lo + i := by omega
  simp [placeAt, hi, h1, h2, h3]

/-- A part of a word below a placed field. -/
theorem extract_placeAt_below {n : Nat} (f : BitVec n) {lo a k : Nat} (h : a + k ≤ lo) :
    (placeAt f lo).extractLsb' a k = 0#k := by
  apply BitVec.eq_of_getLsbD_eq
  intro i hi
  have h1 : a + i < lo := by omega
  simp [placeAt, h1]

/-- A part beyond the width. -/
theorem extract_beyond {n : Nat} (f : BitVec n) {a k : Nat} (h : n ≤ a) : f.extractLsb' a k = 0#k := by
  apply BitVec.eq_of_getLsbD_eq
  intro i hi
  simp [BitVec.getLsbD_of_ge f (a + i) (by omega)]

theorem extract_or {n : Nat} (f g : BitVec n) (a k : Nat) :
    (f ||| g).extractLsb' a k = f.extractLsb' a k ||| g.extractLsb' a k := by
  apply BitVec.eq_of_getLsbD_eq
  intro i hi
  simp [hi]

theorem extract_and {n : Nat} (f g : BitVec n) (a k : Nat) :
    (f &&& g).extractLsb' a k = f.extractLsb' a k &&& g.extractLsb' a k := by
  apply BitVec.eq_of_getLsbD_eq
  intro i hi
  simp [hi]

@[simp] theorem highAndLow_high (a : BitVec 1) (b : BitVec 4) : (highAndLow a b).extractLsb' 4 1 = a := by
  revert a b; decide

@[simp] theorem highAndLow_low (a : BitVec 1) (b : BitVec 4) : (highAndLow a b).extractLsb' 0 4 = b := by
  revert a b; decide

@[simp] theorem highAndLow_parts (d : DNum) : highAndLow (d.extractLsb' 4 1) (d.extractLsb' 0 4) = d := by
  revert d; decide

theorem highAndLow_toNat (a : BitVec 1) (b : BitVec 4) : (highAndLow a b).toNat = 16 * a.toNat + b.toNat := by
  revert a b; decide

/-! ### The bytes of a word -/

theorem bytesOf_wordOfA32 (b0 b1 b2 b3 : Byte) : bytesOf .A32 (wordOfA32 b0 b1 b2 b3) = [b0, b1, b2, b3] := by
  simp [bytesOf, wordOfA32, extract_or, extract_placeAt_above, extract_placeAt_below, extract_beyond]

theorem halfwordOf_low (b0 b1 : Byte) : (halfwordOf b0 b1).extractLsb' 0 8 = b0 := by
  ext i hi
  interval_cases i <;> simp [halfwordOf]

theorem halfwordOf_high (b0 b1 : Byte) : (halfwordOf b0 b1).extractLsb' 8 8 = b1 := by
  ext i hi
  interval_cases i <;> simp [halfwordOf]

theorem bytesOf_wordOfT32 (b0 b1 b2 b3 : Byte) :
    bytesOf .T32 (wordOfT32 (halfwordOf b0 b1) (halfwordOf b2 b3)) = [b0, b1, b2, b3] := by
  simp [bytesOf, wordOfT32, extract_or, extract_placeAt_above, extract_placeAt_below, extract_beyond,
    halfwordOf_low, halfwordOf_high]

/-- Putting the bytes of a word together gives the word, in A32. -/
theorem wordOfA32_bytes (w : Word) :
    wordOfA32 (w.extractLsb' 0 8) (w.extractLsb' 8 8) (w.extractLsb' 16 8) (w.extractLsb' 24 8) = w := by
  ext i hi
  interval_cases i <;> simp [wordOfA32, placeAt]

/-- The first halfword of a word's bytes in T32. -/
theorem halfwordOf_first (w : Word) : halfwordOf (w.extractLsb' 16 8) (w.extractLsb' 24 8) = w.extractLsb' 16 16 := by
  ext i hi
  interval_cases i <;> simp [halfwordOf]

/-- The second halfword of a word's bytes in T32. -/
theorem halfwordOf_second (w : Word) : halfwordOf (w.extractLsb' 0 8) (w.extractLsb' 8 8) = w.extractLsb' 0 16 := by
  ext i hi
  interval_cases i <;> simp [halfwordOf]

/-- Putting the halfwords of a word together gives the word, in T32. -/
theorem wordOfT32_halves (w : Word) : wordOfT32 (w.extractLsb' 16 16) (w.extractLsb' 0 16) = w := by
  ext i hi
  interval_cases i <;> simp [wordOfT32, placeAt]

/-! ### The formats -/

/-- Two words with the same fields are the same word. -/
theorem eq_of_fields {v w : Word} (h23 : v.extractLsb' 23 9 = w.extractLsb' 23 9)
    (h22 : v.extractLsb' 22 1 = w.extractLsb' 22 1) (h20 : v.extractLsb' 20 2 = w.extractLsb' 20 2)
    (h18 : v.extractLsb' 18 2 = w.extractLsb' 18 2) (h16 : v.extractLsb' 16 2 = w.extractLsb' 16 2)
    (h12 : v.extractLsb' 12 4 = w.extractLsb' 12 4) (h11 : v.extractLsb' 11 1 = w.extractLsb' 11 1)
    (h7 : v.extractLsb' 7 4 = w.extractLsb' 7 4) (h6 : v.extractLsb' 6 1 = w.extractLsb' 6 1)
    (h5 : v.extractLsb' 5 1 = w.extractLsb' 5 1) (h4 : v.extractLsb' 4 1 = w.extractLsb' 4 1)
    (h0 : v.extractLsb' 0 4 = w.extractLsb' 0 4) : v = w := by
  have bit : ∀ {lo n : Nat}, v.extractLsb' lo n = w.extractLsb' lo n → ∀ i, lo ≤ i → i < lo + n →
      v.getLsbD i = w.getLsbD i := by
    intro lo n h i hlo hi
    have hb := congrArg (fun x => x.getLsbD (i - lo)) h
    have h1 : i - lo < n := by omega
    have h2 : lo + (i - lo) = i := by omega
    simpa [h1, h2] using hb
  apply BitVec.eq_of_getLsbD_eq
  intro i hi
  rcases Nat.lt_or_ge i 12 with hlt | hge
  · rcases Nat.lt_or_ge i 5 with h | h
    · rcases Nat.lt_or_ge i 4 with h' | h'
      · exact bit h0 i (by omega) (by omega)
      · exact bit h4 i (by omega) (by omega)
    · rcases Nat.lt_or_ge i 7 with h' | h'
      · rcases Nat.lt_or_ge i 6 with h'' | h''
        · exact bit h5 i (by omega) (by omega)
        · exact bit h6 i (by omega) (by omega)
      · rcases Nat.lt_or_ge i 11 with h'' | h''
        · exact bit h7 i (by omega) (by omega)
        · exact bit h11 i (by omega) (by omega)
  · rcases Nat.lt_or_ge i 20 with h | h
    · rcases Nat.lt_or_ge i 16 with h' | h'
      · exact bit h12 i (by omega) (by omega)
      · rcases Nat.lt_or_ge i 18 with h'' | h''
        · exact bit h16 i (by omega) (by omega)
        · exact bit h18 i (by omega) (by omega)
    · rcases Nat.lt_or_ge i 22 with h' | h'
      · exact bit h20 i (by omega) (by omega)
      · rcases Nat.lt_or_ge i 23 with h'' | h''
        · exact bit h22 i (by omega) (by omega)
        · exact bit h23 i (by omega) (by omega)

/-- A word as a number, from its fields. -/
theorem toNat_of_fields (w : Word) :
    w.toNat = (w.extractLsb' 23 9).toNat * 2 ^ 23 + (w.extractLsb' 22 1).toNat * 2 ^ 22 +
      (w.extractLsb' 20 2).toNat * 2 ^ 20 + (w.extractLsb' 18 2).toNat * 2 ^ 18 + (w.extractLsb' 16 2).toNat * 2 ^ 16 +
      (w.extractLsb' 12 4).toNat * 2 ^ 12 + (w.extractLsb' 11 1).toNat * 2 ^ 11 + (w.extractLsb' 7 4).toNat * 2 ^ 7 +
      (w.extractLsb' 6 1).toNat * 2 ^ 6 + (w.extractLsb' 5 1).toNat * 2 ^ 5 + (w.extractLsb' 4 1).toNat * 2 ^ 4 +
      (w.extractLsb' 0 4).toNat := by
  have cut : ∀ a k : Nat, w.toNat / 2 ^ a = (w.extractLsb' a k).toNat + 2 ^ k * (w.toNat / 2 ^ (a + k)) := by
    intro a k
    rw [BitVec.extractLsb'_toNat, Nat.shiftRight_eq_div_pow, Nat.pow_add, ← Nat.div_div_eq_div_mul, Nat.mod_add_div]
  have top : w.toNat / 2 ^ 32 = 0 := Nat.div_eq_of_lt w.isLt
  have h0 : w.toNat = _ := (Nat.div_one _).symm.trans (cut 0 4)
  rw [h0, cut (0 + 4) 1, cut (0 + 4 + 1) 1, cut (0 + 4 + 1 + 1) 1, cut (0 + 4 + 1 + 1 + 1) 4, cut (0 + 4 + 1 + 1 + 1 + 4) 1,
    cut (0 + 4 + 1 + 1 + 1 + 4 + 1) 4, cut (0 + 4 + 1 + 1 + 1 + 4 + 1 + 4) 2, cut (0 + 4 + 1 + 1 + 1 + 4 + 1 + 4 + 2) 2,
    cut (0 + 4 + 1 + 1 + 1 + 4 + 1 + 4 + 2 + 2) 2, cut (0 + 4 + 1 + 1 + 1 + 4 + 1 + 4 + 2 + 2 + 2) 1,
    cut (0 + 4 + 1 + 1 + 1 + 4 + 1 + 4 + 2 + 2 + 2 + 1) 9]
  simp only [Nat.reduceAdd, top]
  ring

section
variable (iset : Iset) (q : BitVec 1) (size : BitVec 2) (d m : DNum)

theorem encodeFields_23 : (encodeFields iset q size d m).extractLsb' 23 9 = topBits iset := by
  simp [encodeFields, extract_or, extract_placeAt_above, extract_beyond]
theorem encodeFields_22 : (encodeFields iset q size d m).extractLsb' 22 1 = d.extractLsb' 4 1 := by
  simp [encodeFields, extract_or, extract_placeAt_above, extract_placeAt_below, extract_beyond]
theorem encodeFields_20 : (encodeFields iset q size d m).extractLsb' 20 2 = 0b11#2 := by
  simp [encodeFields, extract_or, extract_placeAt_above, extract_placeAt_below, extract_beyond]
theorem encodeFields_18 : (encodeFields iset q size d m).extractLsb' 18 2 = size := by
  simp [encodeFields, extract_or, extract_placeAt_above, extract_placeAt_below, extract_beyond]
theorem encodeFields_16 : (encodeFields iset q size d m).extractLsb' 16 2 = 0b10#2 := by
  simp [encodeFields, extract_or, extract_placeAt_above, extract_placeAt_below, extract_beyond]
theorem encodeFields_12 : (encodeFields iset q size d m).extractLsb' 12 4 = d.extractLsb' 0 4 := by
  simp [encodeFields, extract_or, extract_placeAt_above, extract_placeAt_below, extract_beyond]
theorem encodeFields_11 : (encodeFields iset q size d m).extractLsb' 11 1 = 0#1 := by
  simp [encodeFields, extract_or, extract_placeAt_above, extract_placeAt_below, extract_beyond]
theorem encodeFields_7 : (encodeFields iset q size d m).extractLsb' 7 4 = 0b0011#4 := by
  simp [encodeFields, extract_or, extract_placeAt_above, extract_placeAt_below, extract_beyond]
theorem encodeFields_6 : (encodeFields iset q size d m).extractLsb' 6 1 = q := by
  simp [encodeFields, extract_or, extract_placeAt_above, extract_placeAt_below, extract_beyond]
theorem encodeFields_5 : (encodeFields iset q size d m).extractLsb' 5 1 = m.extractLsb' 4 1 := by
  simp [encodeFields, extract_or, extract_placeAt_above, extract_placeAt_below, extract_beyond]
theorem encodeFields_4 : (encodeFields iset q size d m).extractLsb' 4 1 = 0#1 := by
  simp [encodeFields, extract_or, extract_placeAt_above, extract_placeAt_below, extract_beyond]
theorem encodeFields_0 : (encodeFields iset q size d m).extractLsb' 0 4 = m.extractLsb' 0 4 := by
  simp [encodeFields, extract_or, extract_placeAt_above, extract_placeAt_below]

@[simp] theorem fieldSize_encodeFields : fieldSize (encodeFields iset q size d m) = size := encodeFields_18 ..
@[simp] theorem fieldD_encodeFields : fieldD (encodeFields iset q size d m) = d := by
  rw [fieldD, encodeFields_22, encodeFields_12, highAndLow_parts]
@[simp] theorem fieldM_encodeFields : fieldM (encodeFields iset q size d m) = m := by
  rw [fieldM, encodeFields_5, encodeFields_0, highAndLow_parts]

end

/-- The bit `Q` a row fixes. -/
def Encoding.q : Encoding → BitVec 1
  | .a1D => 0#1
  | .a1Q => 1#1
  | .t1D => 0#1
  | .t1Q => 1#1

theorem encodeWord_build (e : Encoding) (size : BitVec 2) (d m : DNum) :
    encodeWord (e.build size d m) = encodeFields e.iset e.q size d m := by
  cases e <;> rfl

/-- A word that matches a row is the encoding of the instruction the row reads from it. -/
theorem encodeWord_of_holds {e : Encoding} {iset : Iset} {w : Word} (h : e.holds iset w = true) :
    encodeWord (e.build (fieldSize w) (fieldD w) (fieldM w)) = w := by
  simp only [Encoding.holds, Bool.and_eq_true, beq_iff_eq] at h
  have part : ∀ a k : Nat, e.mask.extractLsb' a k = BitVec.allOnes k → e.bits.extractLsb' a k = w.extractLsb' a k := by
    intro a k hm
    rw [← h.2, extract_and, hm, BitVec.and_allOnes]
  rw [encodeWord_build]
  apply eq_of_fields
  · rw [encodeFields_23, ← part 23 9 (by cases e <;> decide)]; cases e <;> decide
  · rw [encodeFields_22, fieldD, highAndLow_high]
  · rw [encodeFields_20, ← part 20 2 (by cases e <;> decide)]; cases e <;> decide
  · rw [encodeFields_18, fieldSize]
  · rw [encodeFields_16, ← part 16 2 (by cases e <;> decide)]; cases e <;> decide
  · rw [encodeFields_12, fieldD, highAndLow_low]
  · rw [encodeFields_11, ← part 11 1 (by cases e <;> decide)]; cases e <;> decide
  · rw [encodeFields_7, ← part 7 4 (by cases e <;> decide)]; cases e <;> decide
  · rw [encodeFields_6, ← part 6 1 (by cases e <;> decide)]; cases e <;> decide
  · rw [encodeFields_5, fieldM, highAndLow_high]
  · rw [encodeFields_4, ← part 4 1 (by cases e <;> decide)]; cases e <;> decide
  · rw [encodeFields_0, fieldM, highAndLow_low]

/-- An encoded word matches its row. -/
theorem holds_encodeFields (e : Encoding) (size : BitVec 2) (d m : DNum) :
    e.holds e.iset (encodeFields e.iset e.q size d m) = true := by
  simp only [Encoding.holds, Bool.and_eq_true, beq_iff_eq]
  refine ⟨trivial, ?_⟩
  apply eq_of_fields
  · rw [extract_and, encodeFields_23]; cases e <;> decide
  · rw [extract_and, encodeFields_22]; cases e <;> revert d <;> decide
  · rw [extract_and, encodeFields_20]; cases e <;> decide
  · rw [extract_and, encodeFields_18]; cases e <;> revert size <;> decide
  · rw [extract_and, encodeFields_16]; cases e <;> decide
  · rw [extract_and, encodeFields_12]; cases e <;> revert d <;> decide
  · rw [extract_and, encodeFields_11]; cases e <;> decide
  · rw [extract_and, encodeFields_7]; cases e <;> decide
  · rw [extract_and, encodeFields_6]; cases e <;> decide
  · rw [extract_and, encodeFields_5]; cases e <;> revert m <;> decide
  · rw [extract_and, encodeFields_4]; cases e <;> decide
  · rw [extract_and, encodeFields_0]; cases e <;> revert m <;> decide

/-! ### The decoder -/

/-- A decoded word matched exactly the row its instruction stands for. -/
theorem decodeWord_some {iset : Iset} {w : Word} {i : Instr} (h : decodeWord iset w = some i) :
    ∃ e : Encoding, e.holds iset w = true ∧ i = e.build (fieldSize w) (fieldD w) (fieldM w) := by
  unfold decodeWord at h
  rw [Option.map_eq_some_iff] at h
  obtain ⟨e, he, rfl⟩ := h
  exact ⟨e, by simpa using List.find?_some (p := fun e : Encoding => e.holds iset w) he, rfl⟩

/-- A word that no row matches is not decoded. -/
theorem decodeWord_none {iset : Iset} {w : Word} :
    decodeWord iset w = none ↔ ∀ e : Encoding, e.holds iset w = false := by
  unfold decodeWord
  rw [Option.map_eq_none_iff, List.find?_eq_none]
  constructor
  · intro h e
    have : e ∈ Encoding.all := by cases e <;> decide
    simpa using h e this
  · intro h e _; simp [h e]

/-- The decoder gives only instructions of the instruction set it decodes in. -/
theorem decodeWord_iset {iset : Iset} {w : Word} {i : Instr} (h : decodeWord iset w = some i) : i.iset = iset := by
  obtain ⟨e, he, rfl⟩ := decodeWord_some h
  simp only [Encoding.holds, Bool.and_eq_true, beq_iff_eq] at he
  rw [← he.1]
  cases e <;> rfl

/-- A decoded word is its instruction's encoding. -/
theorem encodeWord_of_decodeWord {iset : Iset} {w : Word} {i : Instr} (h : decodeWord iset w = some i) :
    encodeWord i = w := by
  obtain ⟨e, he, rfl⟩ := decodeWord_some h
  exact encodeWord_of_holds he

theorem ofWord_ok {found : Option Instr} {i : Instr} {rest rest' : List Byte}
    (h : DecodeResult.ofWord found rest = .ok i rest') : found = some i ∧ rest = rest' := by
  unfold DecodeResult.ofWord at h
  split at h
  · cases h; exact ⟨rfl, rfl⟩
  · cases h

/-- The instruction set of a decoded instruction. -/
theorem decode_iset {iset : Iset} {bs rest : List Byte} {i : Instr} (h : decode iset bs = .ok i rest) :
    i.iset = iset := by
  unfold decode at h
  split at h
  · exact decodeWord_iset (ofWord_ok h).1
  · cases h
  · split at h
    · split at h
      · exact decodeWord_iset (ofWord_ok h).1
      · cases h
    · cases h
  · cases h

end Sys2Proof
end

