-- ==== Sys2Proof/Laws/Elem.lean ====
section
/-! SUPPORT. Elements of a vector, the interleaving loop, and the two halves of its result. -/

namespace Sys2Proof.Machine

theorem getLsbD_elem {n : Nat} (v : BitVec n) (e size i : Nat) :
    (elem v e size).getLsbD i = (decide (i < size) && v.getLsbD (e * size + i)) := by
  simp [elem, BitVec.getLsbD_extractLsb']

/-- A bit of a vector after one element is replaced. -/
theorem getLsbD_setElem {n : Nat} (v : BitVec n) (e size : Nat) (x : BitVec size) (i : Nat) (hi : i < n) :
    (setElem v e size x).getLsbD i =
      if e * size ≤ i ∧ i < e * size + size then x.getLsbD (i - e * size) else v.getLsbD i := by
  simp only [setElem, elemMask, BitVec.getLsbD_or, BitVec.getLsbD_and, BitVec.getLsbD_not,
    BitVec.getLsbD_shiftLeft, BitVec.getLsbD_setWidth, BitVec.getLsbD_allOnes]
  split
  · rename_i h
    have h1 : ¬ i < e * size := by omega
    have h2 : i - e * size < size := by omega
    have h3 : i - e * size < n := by omega
    simp [hi, h1, h2, h3]
  · rename_i h
    by_cases h1 : i < e * size
    · simp [hi, h1]
    · have h2 : ¬ i - e * size < size := by omega
      simp [hi, h1, h2, BitVec.getLsbD_of_ge x (i - e * size) (by omega)]

theorem elem_setElem_same {n : Nat} (v : BitVec n) (e size : Nat) (x : BitVec size) (h : e * size + size ≤ n) :
    elem (setElem v e size x) e size = x := by
  apply BitVec.eq_of_getLsbD_eq
  intro i hi
  rw [getLsbD_elem, getLsbD_setElem _ _ _ _ _ (by omega), if_pos (by omega)]
  simp [hi]

theorem elem_setElem_ne {n : Nat} (v : BitVec n) {e f : Nat} (size : Nat) (x : BitVec size) (hne : f ≠ e)
    (h : f * size + size ≤ n) : elem (setElem v e size x) f size = elem v f size := by
  apply BitVec.eq_of_getLsbD_eq
  intro i hi
  rw [getLsbD_elem, getLsbD_elem, getLsbD_setElem _ _ _ _ _ (by omega), if_neg]
  rintro ⟨h1, h2⟩
  rcases Nat.lt_or_gt_of_ne hne with hlt | hlt
  · have : (f + 1) * size ≤ e * size := Nat.mul_le_mul_right _ hlt
    have : (f + 1) * size = f * size + size := Nat.succ_mul f size
    omega
  · have : (e + 1) * size ≤ f * size := Nat.mul_le_mul_right _ hlt
    have : (e + 1) * size = e * size + size := Nat.succ_mul e size
    omega

/-- What the loop leaves in the temporary: after n rounds the elements below 2n are the interleaving and the others are
as they were. -/
theorem elem_zipLoop {w : Nat} (esize : Nat) (a b : BitVec w) (n : Nat) (z : BitVec (2 * w))
    (f : Nat) (hf : f * esize + esize ≤ 2 * w) (hn : 2 * n * esize ≤ 2 * w) :
    elem (zipLoop esize a b n z) f esize =
      if f < 2 * n then (if f % 2 = 0 then elem a (f / 2) esize else elem b (f / 2) esize)
      else elem z f esize := by
  induction n with
  | zero => simp [zipLoop]
  | succ n ih =>
    have hstep : 2 * (n + 1) * esize = 2 * n * esize + esize + esize := by ring
    have hodd : (2 * n + 1) * esize = 2 * n * esize + esize := by ring
    rw [zipLoop]
    by_cases h1 : f = 2 * n + 1
    · subst h1
      rw [elem_setElem_same _ _ _ _ hf, if_pos (by omega), if_neg (by omega)]
      congr 1; omega
    · rw [elem_setElem_ne _ _ _ h1 hf]
      by_cases h0 : f = 2 * n
      · subst h0
        rw [elem_setElem_same _ _ _ _ hf, if_pos (by omega), if_pos (by omega)]
        congr 1; omega
      · rw [elem_setElem_ne _ _ _ h0 hf, ih (by omega)]
        by_cases h2 : f < 2 * n
        · have h3 : f < 2 * (n + 1) := by omega
          simp only [h2, h3, if_true]
        · have h3 : ¬ f < 2 * (n + 1) := by omega
          simp only [h2, h3, if_false]

/-- The first register's element j, where the element size divides the width evenly. -/
theorem elem_zipLow {w esize h : Nat} (hw : w = 2 * h * esize) (hpos : 0 < esize) (a b : BitVec w) (j : Nat)
    (hj : j < 2 * h) :
    elem (zipLow esize a b) j esize = if j % 2 = 0 then elem a (j / 2) esize else elem b (j / 2) esize := by
  have hn : w / esize = 2 * h := by rw [hw]; exact Nat.mul_div_cancel _ hpos
  have hle : j * esize + esize ≤ w := by
    rw [hw, ← Nat.succ_mul]; exact Nat.mul_le_mul_right _ hj
  have key : elem (zipLow esize a b) j esize = elem (zipped esize a b) j esize := by
    apply BitVec.eq_of_getLsbD_eq
    intro i hi
    have : j * esize + i < w := by omega
    simp only [getLsbD_elem, zipLow, BitVec.getLsbD_extractLsb', this, decide_true, Bool.true_and, Nat.zero_add]
  have hmul : 2 * (2 * h) * esize = 2 * w := by rw [hw]; ring
  rw [key, zipped, hn, elem_zipLoop _ _ _ _ _ _ (by omega) (by omega), if_pos (by omega)]

/-- The second register's element j. -/
theorem elem_zipHigh {w esize h : Nat} (hw : w = 2 * h * esize) (hpos : 0 < esize) (a b : BitVec w) (j : Nat)
    (hj : j < 2 * h) :
    elem (zipHigh esize a b) j esize =
      if j % 2 = 0 then elem a (h + j / 2) esize else elem b (h + j / 2) esize := by
  have hn : w / esize = 2 * h := by rw [hw]; exact Nat.mul_div_cancel _ hpos
  have hle : j * esize + esize ≤ w := by
    rw [hw, ← Nat.succ_mul]; exact Nat.mul_le_mul_right _ hj
  have hoff : (2 * h + j) * esize = w + j * esize := by rw [hw]; ring
  have key : elem (zipHigh esize a b) j esize = elem (zipped esize a b) (2 * h + j) esize := by
    apply BitVec.eq_of_getLsbD_eq
    intro i hi
    have : j * esize + i < w := by omega
    simp only [getLsbD_elem, zipHigh, BitVec.getLsbD_extractLsb', this, hoff, decide_true, Bool.true_and,
      Nat.add_assoc]
  have hmul : 2 * (2 * h) * esize = 2 * w := by rw [hw]; ring
  rw [key, zipped, hn, elem_zipLoop _ _ _ _ _ _ (by omega) (by omega), if_pos (by omega)]
  have hm : (2 * h + j) % 2 = j % 2 := by omega
  have hd : (2 * h + j) / 2 = h + j / 2 := by omega
  rw [hm, hd]

/-- Vectors with the same elements are the same. -/
theorem eq_of_elem_eq {w size n : Nat} (hw : w = n * size) (hpos : 0 < size) {a b : BitVec w}
    (h : ∀ j < n, elem a j size = elem b j size) : a = b := by
  apply BitVec.eq_of_getLsbD_eq
  intro i hi
  have hq : i / size < n := by rw [Nat.div_lt_iff_lt_mul hpos]; omega
  have hbit := congrArg (fun x => x.getLsbD (i % size)) (h _ hq)
  simpa only [getLsbD_elem, Nat.mod_lt i hpos, Nat.div_add_mod' i size, decide_true, Bool.true_and] using hbit

end Sys2Proof.Machine
end

