-- ==== Sys2Proof/Laws/State.lean ====
section
/-! SUPPORT. What each update of the state leaves in each field, and reading a register after writing one. -/

namespace Sys2Proof.Machine

/-! ### `writeD` -/

@[simp] theorem State.writeD_pc (s : State) (n : DNum) (v : Doubleword) : (s.writeD n v).pc = s.pc := rfl
@[simp] theorem State.writeD_iset (s : State) (n : DNum) (v : Doubleword) : (s.writeD n v).iset = s.iset := rfl
@[simp] theorem State.writeD_k (s : State) (n : DNum) (v : Doubleword) : (s.writeD n v).k = s.k := rfl
@[simp] theorem State.writeD_params (s : State) (n : DNum) (v : Doubleword) : (s.writeD n v).params = s.params := rfl
@[simp] theorem State.writeD_sys (s : State) (n : DNum) (v : Doubleword) : (s.writeD n v).sys = s.sys := rfl

/-! ### `writeQ` -/

@[simp] theorem State.writeQ_pc (s : State) (n : QNum) (v : Quadword) : (s.writeQ n v).pc = s.pc := rfl
@[simp] theorem State.writeQ_iset (s : State) (n : QNum) (v : Quadword) : (s.writeQ n v).iset = s.iset := rfl
@[simp] theorem State.writeQ_k (s : State) (n : QNum) (v : Quadword) : (s.writeQ n v).k = s.k := rfl
@[simp] theorem State.writeQ_params (s : State) (n : QNum) (v : Quadword) : (s.writeQ n v).params = s.params := rfl
@[simp] theorem State.writeQ_sys (s : State) (n : QNum) (v : Quadword) : (s.writeQ n v).sys = s.sys := rfl

/-! ### `advance` -/

@[simp] theorem State.advance_dregs (s : State) : s.advance.dregs = s.dregs := rfl
@[simp] theorem State.advance_pc (s : State) : s.advance.pc = s.pc + 4 := rfl
@[simp] theorem State.advance_iset (s : State) : s.advance.iset = s.iset := rfl
@[simp] theorem State.advance_k (s : State) : s.advance.k = s.k + 1 := rfl
@[simp] theorem State.advance_params (s : State) : s.advance.params = s.params := rfl
@[simp] theorem State.advance_sys (s : State) : s.advance.sys = s.sys := rfl
@[simp] theorem State.readD_advance (s : State) (n : DNum) : s.advance.readD n = s.readD n := rfl
@[simp] theorem State.readQ_advance (s : State) (n : QNum) : s.advance.readQ n = s.readQ n := rfl

/-! ### Registers -/

@[simp] theorem State.readD_writeD_same (s : State) (n : DNum) (v : Doubleword) : (s.writeD n v).readD n = v := by
  simp [State.readD, State.writeD]

@[simp] theorem State.readD_writeD_ne (s : State) {n r : DNum} (h : r ≠ n) (v : Doubleword) :
    (s.writeD n v).readD r = s.readD r := by
  have hne : n.toNat ≠ r.toNat := fun e => h (BitVec.eq_of_toNat_eq e.symm)
  simp [State.readD, State.writeD, hne]

@[simp] theorem lowHalf_ne_highHalf (n k : QNum) : lowHalf n ≠ highHalf k := by
  revert n k; decide

@[simp] theorem highHalf_ne_lowHalf (n k : QNum) : highHalf n ≠ lowHalf k := by
  revert n k; decide

theorem lowHalf_inj {n k : QNum} (h : n ≠ k) : lowHalf n ≠ lowHalf k := by
  revert n k; decide

theorem highHalf_inj {n k : QNum} (h : n ≠ k) : highHalf n ≠ highHalf k := by
  revert n k; decide

/-- Writing Q[n] leaves every D register that is neither half as it was. -/
theorem State.readD_writeQ_other (s : State) {n : QNum} {r : DNum} (hl : r ≠ lowHalf n) (hh : r ≠ highHalf n)
    (v : Quadword) : (s.writeQ n v).readD r = s.readD r := by
  simp [State.writeQ, hl, hh]

@[simp] theorem State.readD_writeQ_low (s : State) (n : QNum) (v : Quadword) :
    (s.writeQ n v).readD (lowHalf n) = v.extractLsb' 0 64 := by
  simp [State.writeQ]

@[simp] theorem State.readD_writeQ_high (s : State) (n : QNum) (v : Quadword) :
    (s.writeQ n v).readD (highHalf n) = v.extractLsb' 64 64 := by
  simp [State.writeQ]

@[simp] theorem State.readQ_writeQ_same (s : State) (n : QNum) (v : Quadword) : (s.writeQ n v).readQ n = v := by
  rw [State.readQ, readD_writeQ_low, readD_writeQ_high]
  apply BitVec.eq_of_getLsbD_eq
  intro i hi
  rw [BitVec.getLsbD_append]
  split
  · simp [*]
  · have h1 : i - 64 < 64 := by omega
    have h2 : 64 + (i - 64) = i := by omega
    simp [h1, h2]

theorem State.readQ_writeQ_ne (s : State) {n k : QNum} (h : k ≠ n) (v : Quadword) :
    (s.writeQ n v).readQ k = s.readQ k := by
  rw [State.readQ, State.readQ,
    s.readD_writeQ_other (highHalf_ne_lowHalf k n) (highHalf_inj h) v,
    s.readD_writeQ_other (lowHalf_inj h) (lowHalf_ne_highHalf k n) v]

end Sys2Proof.Machine
end

