-- ==== Sys2Proof/Laws/Exec.lean ====
section
/-! SUPPORT. What the two operations change, what an execution can answer, and what a step can do. -/

namespace Sys2Proof.Machine

/-! ### Frames of the operations -/

@[simp] theorem vzipD_pc (size : BitVec 2) (d m : DNum) (s : State) : (vzipD size d m s).pc = s.pc := by
  unfold vzipD; split <;> rfl
@[simp] theorem vzipD_iset (size : BitVec 2) (d m : DNum) (s : State) : (vzipD size d m s).iset = s.iset := by
  unfold vzipD; split <;> rfl
@[simp] theorem vzipD_k (size : BitVec 2) (d m : DNum) (s : State) : (vzipD size d m s).k = s.k := by
  unfold vzipD; split <;> rfl
@[simp] theorem vzipD_params (size : BitVec 2) (d m : DNum) (s : State) : (vzipD size d m s).params = s.params := by
  unfold vzipD; split <;> rfl
@[simp] theorem vzipD_sys (size : BitVec 2) (d m : DNum) (s : State) : (vzipD size d m s).sys = s.sys := by
  unfold vzipD; split <;> rfl

@[simp] theorem vzipQ_pc (size : BitVec 2) (d m : DNum) (s : State) : (vzipQ size d m s).pc = s.pc := by
  unfold vzipQ; split <;> rfl
@[simp] theorem vzipQ_iset (size : BitVec 2) (d m : DNum) (s : State) : (vzipQ size d m s).iset = s.iset := by
  unfold vzipQ; split <;> rfl
@[simp] theorem vzipQ_k (size : BitVec 2) (d m : DNum) (s : State) : (vzipQ size d m s).k = s.k := by
  unfold vzipQ; split <;> rfl
@[simp] theorem vzipQ_params (size : BitVec 2) (d m : DNum) (s : State) : (vzipQ size d m s).params = s.params := by
  unfold vzipQ; split <;> rfl
@[simp] theorem vzipQ_sys (size : BitVec 2) (d m : DNum) (s : State) : (vzipQ size d m s).sys = s.sys := by
  unfold vzipQ; split <;> rfl

/-- The 64-bit operation leaves every register but its two operands as it was. -/
theorem readD_vzipD_other (size : BitVec 2) {d m r : DNum} (s : State) (hd : r ≠ d) (hm : r ≠ m) :
    (vzipD size d m s).readD r = s.readD r := by
  unfold vzipD; split <;> simp [hd, hm]

/-- The 128-bit operation leaves every register but the halves of its two operands as it was. -/
theorem readD_vzipQ_other (size : BitVec 2) {d m r : DNum} (s : State)
    (hdl : r ≠ lowHalf (quadOf d)) (hdh : r ≠ highHalf (quadOf d))
    (hml : r ≠ lowHalf (quadOf m)) (hmh : r ≠ highHalf (quadOf m)) :
    (vzipQ size d m s).readD r = s.readD r := by
  unfold vzipQ; split <;> simp [State.readD_writeQ_other, *]

/-- For an even register number, D[d] and D[d+1] are the halves of Q[d>>1]. -/
theorem halves_of_even {d : DNum} (h : d.getLsbD 0 = false) :
    lowHalf (quadOf d) = d ∧ highHalf (quadOf d) = d + 1 := by
  revert h; revert d; decide

/-- Two different even register numbers name two different Q registers. -/
theorem quadOf_inj {d m : DNum} (hd : d.getLsbD 0 = false) (hm : m.getLsbD 0 = false) (h : d ≠ m) :
    quadOf d ≠ quadOf m := by
  intro e
  exact h (by rw [← (halves_of_even hd).1, ← (halves_of_even hm).1, e])

/-! ### Executions -/

/-- The operation of each encoding, without its guards. -/
def operationOf : Instr → State → State
  | .vzipA1D size d m => vzipD size d m
  | .vzipA1Q size d m => vzipQ size d m
  | .vzipT1D size d m => vzipD size d m
  | .vzipT1Q size d m => vzipQ size d m

theorem exec_eq_guarded (i : Instr) (s : State) : exec i s = guarded i (operationOf i) s := by
  cases i <;> rfl

@[simp] theorem operationOf_pc (i : Instr) (s : State) : (operationOf i s).pc = s.pc := by
  cases i <;> simp [operationOf]
@[simp] theorem operationOf_iset (i : Instr) (s : State) : (operationOf i s).iset = s.iset := by
  cases i <;> simp [operationOf]
@[simp] theorem operationOf_k (i : Instr) (s : State) : (operationOf i s).k = s.k := by
  cases i <;> simp [operationOf]
@[simp] theorem operationOf_params (i : Instr) (s : State) : (operationOf i s).params = s.params := by
  cases i <;> simp [operationOf]
@[simp] theorem operationOf_sys (i : Instr) (s : State) : (operationOf i s).sys = s.sys := by
  cases i <;> simp [operationOf]

/-- Everything an execution can answer as a next state: the operation ran, or its condition failed. -/
theorem exec_next {i : Instr} {s t : State} (h : exec i s = .next t) :
    (s.conditionPassed = true ∧ i.undef = false ∧ s.params.advsimdCheck = .enabled ∧ t = (operationOf i s).advance) ∨
      (s.conditionPassed = false ∧ (i.undef && s.params.undefWhenCondFails) = false ∧ t = s.advance) := by
  rw [exec_eq_guarded, guarded] at h
  split at h
  · rename_i hc
    split at h
    · cases h
    · rename_i hu
      split at h
      · rename_i he
        cases h
        exact .inl ⟨hc, by simpa using hu, he, rfl⟩
      · cases h
      · cases h
  · rename_i hc
    split at h
    · cases h
    · rename_i hu
      cases h
      exact .inr ⟨by simpa using hc, by simpa using hu, rfl⟩

/-- Where all three guards let it, an instruction completes with its operation's state. -/
theorem exec_of_guards {i : Instr} {s : State} (hc : s.conditionPassed = true) (hu : i.undef = false)
    (he : s.params.advsimdCheck = .enabled) : exec i s = .next (operationOf i s).advance := by
  rw [exec_eq_guarded, guarded, if_pos hc, hu, State.checkAdvSIMDEnabled, he]; rfl

/-- Everything an execution can answer as a fault. -/
theorem exec_fault {i : Instr} {s : State} {f : Fault} (h : exec i s = .fault f) :
    (f = .undefinedInstruction s.pc (encodeWord i) ∧
      (i.undef = true ∨ (s.conditionPassed = true ∧ s.params.advsimdCheck = .undefined))) ∨
    (f = .hypTrap s.pc ∧ s.conditionPassed = true ∧ i.undef = false ∧ s.params.advsimdCheck = .hypTrap) := by
  rw [exec_eq_guarded, guarded] at h
  split at h
  · rename_i hc
    split at h
    · rename_i hu; cases h; exact .inl ⟨rfl, .inl hu⟩
    · rename_i hu
      split at h
      · cases h
      · rename_i he; cases h; exact .inl ⟨rfl, .inr ⟨hc, he⟩⟩
      · rename_i he; cases h; exact .inr ⟨rfl, hc, by simpa using hu, he⟩
  · split at h
    · rename_i hu
      cases h
      exact .inl ⟨rfl, .inl (by simpa using (Bool.and_eq_true _ _ ▸ hu).1)⟩
    · cases h

theorem exec_not_refused (i : Instr) (s : State) (r : Refusal) : exec i s ≠ .refused r := by
  rw [exec_eq_guarded, guarded]
  split
  · split
    · exact nofun
    · split <;> exact nofun
  · split <;> exact nofun

/-- A completed execution leaves the instruction set, the parameters and the named system state as they were, and
advances the pc and the step index. -/
theorem exec_next_frame {i : Instr} {s t : State} (h : exec i s = .next t) :
    t.pc = s.pc + 4 ∧ t.iset = s.iset ∧ t.k = s.k + 1 ∧ t.params = s.params ∧ t.sys = s.sys := by
  rcases exec_next h with ⟨-, -, -, rfl⟩ | ⟨-, -, rfl⟩ <;> simp

/-! ### Steps -/

/-- A step that completes ran the instruction decoded from the bytes at an aligned pc. -/
theorem step_next {s t : State} (h : step s = .next t) :
    s.pcAligned = true ∧ ∃ bytes i rest, s.fetch = some bytes ∧ decode s.iset bytes = .ok i rest ∧
      exec i s = .next t := by
  unfold step at h
  split at h
  · rename_i ha
    split at h
    · cases h
    · rename_i bytes hf
      split at h
      · rename_i i rest hd; exact ⟨ha, bytes, i, rest, hf, hd, h⟩
      · cases h
      · cases h
  · cases h

/-- A step that faults ran the instruction decoded from the bytes at an aligned pc. -/
theorem step_fault {s : State} {f : Fault} (h : step s = .fault f) :
    s.pcAligned = true ∧ ∃ bytes i rest, s.fetch = some bytes ∧ decode s.iset bytes = .ok i rest ∧
      exec i s = .fault f := by
  unfold step at h
  split at h
  · rename_i ha
    split at h
    · cases h
    · rename_i bytes hf
      split at h
      · rename_i i rest hd; exact ⟨ha, bytes, i, rest, hf, hd, h⟩
      · cases h
      · cases h
  · cases h

/-- What every completed step leaves as it was, and where it leaves the pc. -/
theorem step_next_frame {s t : State} (h : step s = .next t) :
    t.pc = s.pc + 4 ∧ t.iset = s.iset ∧ t.k = s.k + 1 ∧ t.params = s.params ∧ t.sys = s.sys := by
  obtain ⟨-, _, _, _, -, -, he⟩ := step_next h
  exact exec_next_frame he

/-! ### Fields and alignment in numbers -/

/-- The element size in bits (R76). -/
theorem esize_eq (size : BitVec 2) : esize size = 8 * 2 ^ size.toNat := by revert size; decide

/-- The UNDEFINED encodings by their fields (R77). -/
theorem undef_iff (i : Instr) :
    i.undef = true ↔ i.size = 0b11#2 ∨ (i.q = 0#1 ∧ i.size = 0b10#2) ∨
      (i.q = 1#1 ∧ (i.d.getLsbD 0 = true ∨ i.m.getLsbD 0 = true)) := by
  simp [Instr.undef, undefinedFields, or_assoc]

/-- An odd register number by its lowest bit. -/
theorem odd_iff_low_bit (d : DNum) : d.toNat % 2 = 1 ↔ d.getLsbD 0 = true := by revert d; decide

/-- An even register number by its lowest bit. -/
theorem even_iff_low_bit (d : DNum) : d.toNat % 2 = 0 ↔ d.getLsbD 0 = false := by revert d; decide

/-- Alignment in A32 (R41). -/
theorem pcAligned_a32_iff {s : State} (h : s.iset = .A32) : s.pcAligned = true ↔ s.pc.toNat % 4 = 0 := by
  simp only [State.pcAligned, h, beq_iff_eq, ← BitVec.toNat_inj]
  simp [BitVec.extractLsb'_toNat]

/-- Alignment in T32 (R41). -/
theorem pcAligned_t32_iff {s : State} (h : s.iset = .T32) : s.pcAligned = true ↔ s.pc.toNat % 2 = 0 := by
  simp only [State.pcAligned, h, beq_iff_eq, ← BitVec.toNat_inj]
  simp [BitVec.extractLsb'_toNat]

/-- Four bytes on, the pc is as aligned as it was. -/
theorem pcAligned_four_on {s t : State} (hpc : t.pc = s.pc + 4) (hiset : t.iset = s.iset) :
    t.pcAligned = s.pcAligned := by
  have k4 : ∀ w : Word, (w + 4).extractLsb' 0 2 = w.extractLsb' 0 2 := fun w =>
    BitVec.eq_of_toNat_eq (by simp [BitVec.extractLsb'_toNat, BitVec.toNat_add])
  have k2 : ∀ w : Word, (w + 4).extractLsb' 0 1 = w.extractLsb' 0 1 := fun w =>
    BitVec.eq_of_toNat_eq (by simp [BitVec.extractLsb'_toNat, BitVec.toNat_add]; omega)
  simp only [State.pcAligned, hpc, hiset, k4, k2]

end Sys2Proof.Machine
end

