-- ==== Sys2Proof/Laws/Memory.lean ====
section
/-! SUPPORT. The program text: reading after a write, and every operation on it keeps the canonical form. -/

namespace Sys2Proof.Machine

theorem Memory.read_write_same (m : Memory) (x : Word) (v : Byte) : (m.write x v).read x = some v := by
  induction m with
  | nil => simp [Memory.write, Memory.read]
  | cons c rest ih =>
    obtain ⟨a, b⟩ := c
    simp only [Memory.write]
    split
    · simp [Memory.read]
    · split
      · simp_all [Memory.read]
      · rename_i h; simp [Memory.read, ih, Ne.symm h]

theorem Memory.read_write_ne (m : Memory) {x y : Word} (h : y ≠ x) (v : Byte) :
    (m.write x v).read y = m.read y := by
  have hne : x.toNat ≠ y.toNat := fun e => h (BitVec.eq_of_toNat_eq e.symm)
  induction m with
  | nil => simp [Memory.write, Memory.read, hne]
  | cons c rest ih =>
    obtain ⟨a, b⟩ := c
    simp only [Memory.write]
    split
    · simp [Memory.read, hne]
    · split
      · rename_i h2; subst h2; simp [Memory.read, hne]
      · simp [Memory.read, ih]

/-- A write at or above `low` keeps the form from `low` on. -/
theorem Memory.wfFrom_write (m : Memory) (low : Nat) (x : Word) (v : Byte) (hx : low ≤ x.toNat)
    (h : m.wfFrom low = true) : (m.write x v).wfFrom low = true := by
  have hlt := x.isLt
  induction m generalizing low with
  | nil => simpa [Memory.write, Memory.wfFrom, hx] using hlt
  | cons c rest ih =>
    obtain ⟨a, b⟩ := c
    simp only [Memory.wfFrom, Bool.and_eq_true, decide_eq_true_eq] at h
    simp only [Memory.write]
    split
    · simp only [Memory.wfFrom, Bool.and_eq_true, decide_eq_true_eq]
      exact ⟨⟨hx, hlt⟩, ⟨by omega, h.1.2⟩, h.2⟩
    · split
      · simpa [Memory.wfFrom] using h
      · simp only [Memory.wfFrom, Bool.and_eq_true, decide_eq_true_eq]
        exact ⟨h.1, ih (a + 1) (by omega) h.2⟩

theorem Memory.wf_write {m : Memory} (h : m.wf = true) (x : Word) (v : Byte) : (m.write x v).wf = true :=
  Memory.wfFrom_write m 0 x v (Nat.zero_le _) h

theorem Memory.wf_load {m : Memory} (h : m.wf = true) (x : Word) (bs : List Byte) : (m.load x bs).wf = true := by
  induction bs generalizing m x with
  | nil => exact h
  | cons b rest ih => exact ih (Memory.wf_write h x b) (x + 1)

/-- A load leaves the bytes it does not cover as they were. -/
theorem Memory.read_load_other (m : Memory) (x y : Word) (bs : List Byte)
    (h : ∀ i < bs.length, y ≠ x + BitVec.ofNat 32 i) : (m.load x bs).read y = m.read y := by
  induction bs generalizing m x with
  | nil => rfl
  | cons b rest ih =>
    have h0 : y ≠ x := by simpa using h 0 (by simp)
    rw [Memory.load, ih, Memory.read_write_ne _ h0]
    intro i hi
    have := h (i + 1) (by simpa using hi)
    rwa [BitVec.ofNat_add, BitVec.add_comm (BitVec.ofNat 32 i), ← BitVec.add_assoc] at this

theorem State.reset_prog_wf : State.reset.params.prog.wf = true := by decide

/-- Loading an instruction word keeps the canonical form. -/
theorem State.withFetchWord_prog_wf (s : State) (nbits w : Nat) (h : s.params.prog.wf = true) :
    (s.withFetchWord nbits w).params.prog.wf = true :=
  Memory.wf_load h _ _

/-- The four bytes of a load of four, also where the addresses wrap. -/
theorem Memory.read_load_four (m : Memory) (x : Word) (b0 b1 b2 b3 : Byte) :
    (m.load x [b0, b1, b2, b3]).read x = some b0 ∧ (m.load x [b0, b1, b2, b3]).read (x + 1) = some b1 ∧
      (m.load x [b0, b1, b2, b3]).read (x + 2) = some b2 ∧ (m.load x [b0, b1, b2, b3]).read (x + 3) = some b3 := by
  have e2 : x + 1 + 1 = x + 2 := by rw [BitVec.add_assoc]; rfl
  have e3 : x + 2 + 1 = x + 3 := by rw [BitVec.add_assoc]; rfl
  have ne : ∀ a b : Word, a ≠ b → x + a ≠ x + b := fun a b h h' => h (by simpa using h')
  have ne0 : ∀ b : Word, 0 ≠ b → x ≠ x + b := fun b h h' => h (Eq.symm (by simpa using h'.symm))
  simp only [Memory.load, e2, e3]
  refine ⟨?_, ?_, ?_, Memory.read_write_same ..⟩
  · rw [Memory.read_write_ne _ (ne0 _ (by decide)), Memory.read_write_ne _ (ne0 _ (by decide)),
      Memory.read_write_ne _ (ne0 _ (by decide)), Memory.read_write_same]
  · rw [Memory.read_write_ne _ (ne _ _ (by decide)), Memory.read_write_ne _ (ne _ _ (by decide)), Memory.read_write_same]
  · rw [Memory.read_write_ne _ (ne _ _ (by decide)), Memory.read_write_same]

end Sys2Proof.Machine
end

