-- ==== Sys2Proof/Laws/PerInstr.lean ====
section
/-! SUPPORT. Facts about every instruction as syntax, one lemma per constructor. -/

namespace Sys2Proof.Laws

/-- The UNDEFINED checks of the decode pseudocode (R77) are the RESERVED sizes and odd Q numbers of the assembler's
tables (R58, R64, R68). -/
def WellFormedIffDefined.Statement (i : Instr) : Prop := i.wellFormed = !i.undef

theorem sizeOkD_iff_defined (size : BitVec 2) : sizeOkD size = !(size == 0b11#2 || size == 0b10#2) := by
  revert size; decide

theorem sizeOkQ_iff_defined (size : BitVec 2) : sizeOkQ size = !(size == 0b11#2) := by
  revert size; decide

theorem namesQuad_iff_even (d : DNum) : namesQuad d = !d.getLsbD 0 := by
  revert d; decide

theorem undefinedFields_double (size : BitVec 2) (d m : DNum) :
    undefinedFields 0#1 size d m = (size == 0b11#2 || size == 0b10#2) := by
  simp [undefinedFields]

theorem undefinedFields_quad (size : BitVec 2) (d m : DNum) :
    undefinedFields 1#1 size d m = (size == 0b11#2 || (d.getLsbD 0 || m.getLsbD 0)) := by
  simp [undefinedFields]

theorem WellFormedIffDefined.vzipA1D (size : BitVec 2) (d m : DNum) :
    WellFormedIffDefined.Statement (.vzipA1D size d m) :=
  (sizeOkD_iff_defined size).trans (congrArg _ (undefinedFields_double size d m).symm)

theorem WellFormedIffDefined.vzipT1D (size : BitVec 2) (d m : DNum) :
    WellFormedIffDefined.Statement (.vzipT1D size d m) :=
  (sizeOkD_iff_defined size).trans (congrArg _ (undefinedFields_double size d m).symm)

theorem quad_wellFormed (size : BitVec 2) (d m : DNum) :
    (sizeOkQ size && namesQuad d && namesQuad m) = !undefinedFields 1#1 size d m := by
  rw [undefinedFields_quad, sizeOkQ_iff_defined, namesQuad_iff_even, namesQuad_iff_even]
  simp [Bool.and_assoc]

theorem WellFormedIffDefined.vzipA1Q (size : BitVec 2) (d m : DNum) :
    WellFormedIffDefined.Statement (.vzipA1Q size d m) := quad_wellFormed size d m

theorem WellFormedIffDefined.vzipT1Q (size : BitVec 2) (d m : DNum) :
    WellFormedIffDefined.Statement (.vzipT1Q size d m) := quad_wellFormed size d m

/-- Well-formed is not UNDEFINED, for every instruction (R58, R77). -/
theorem wellFormed_eq_not_undef : ∀ i : Instr, i.wellFormed = !i.undef
  | .vzipA1D size d m => WellFormedIffDefined.vzipA1D size d m
  | .vzipA1Q size d m => WellFormedIffDefined.vzipA1Q size d m
  | .vzipT1D size d m => WellFormedIffDefined.vzipT1D size d m
  | .vzipT1Q size d m => WellFormedIffDefined.vzipT1Q size d m

end Sys2Proof.Laws
end

