-- ==== Sys2Proof/Laws/Run.lean ====
section
/-! SUPPORT. One more step of the host's run and of a run to its end. -/

namespace Sys2Proof.Machine

/-- The run of any machine after a step that completed. -/
theorem machine_run_succ_next (M : Host.Core) {s t : M.State} (h : M.step s = .next t) (n : Nat) :
    M.run (n + 1) s = M.run n t := by
  rw [Host.Core.run, h]

/-- The host's run after a step that completed. -/
theorem run_succ_next {s t : State} (h : step s = .next t) (n : Nat) :
    Host.Core.run core (n + 1) s = Host.Core.run core n t := machine_run_succ_next core h n

/-- A run to its end after a step that completed. -/
theorem runToEnd_succ_next {s t : State} (he : s.atEnd = false) (h : step s = .next t) (n : Nat) :
    runToEnd (n + 1) s = runToEnd n t := by
  rw [runToEnd, he, h]; rfl

end Sys2Proof.Machine
end

