-- ==== Sys2Proof/Tests/Slice0.lean ====
section
/-! SUPPORT. Small tests: words of 95_test_vectors.md section 2.1 and 2.2 through the decoder, one step per result
vector, ill-formed terms, and for every statement with hypotheses a state and operands that meet them. -/

namespace Sys2Proof.Tests

open Sys2Proof.Machine

/-! ### The small states of the tests -/

/-- The byte pattern 07 06 05 04 03 02 01 00 of 95_test_vectors.md section 2.3. -/
def bytesA : Doubleword := 0x0706050403020100#64
/-- 0F 0E ... 08. -/
def bytesA' : Doubleword := 0x0F0E0D0C0B0A0908#64
/-- 17 16 ... 10. -/
def bytesB : Doubleword := 0x1716151413121110#64
/-- 1F 1E ... 18. -/
def bytesB' : Doubleword := 0x1F1E1D1C1B1A1918#64

/-- A launch at 0x8000 with four bytes of text and D0 = A, D1 = B (section 2.5). -/
def pair (iset : Iset) (text : List Byte) : State :=
  (({ State.reset with
      iset := iset, params := { Params.reset with prog := Memory.load [] 0x8000#32 text } } : State).writeD 0 bytesA).writeD
    1 bytesB

/-- The same with Q0 = A'A and Q1 = B'B, that is D0, D1 and D2, D3 (section 2.3). -/
def quadPair (iset : Iset) (text : List Byte) : State :=
  (((pair iset text).writeD 1 bytesA').writeD 2 bytesB).writeD 3 bytesB'

/-- The state with another result of the enable check. -/
def withCheck (c : AdvSimdCheck) (s : State) : State := { s with params := { s.params with advsimdCheck := c } }

/-- The state with other results of the condition check and another treatment of UNDEFINED encodings that fail it. -/
def withConditions (results : List Bool) (faults : Bool) (s : State) : State :=
  { s with params := { s.params with condPassed := results, undefWhenCondFails := faults } }

/-- The state at another pc. -/
def atPc (pc : Word) (s : State) : State := { s with pc := pc }

/-- The pc and a register of the next state, if there is one. -/
def after (o : StepOutcome) (n : DNum) : Option (Word × Doubleword) :=
  match o with
  | .next t => some (t.pc, t.readD n)
  | .fault _ => none
  | .refused _ => none

/-- The fault, if there is one. -/
def faultOf : StepOutcome → Option Fault
  | .next _ => none
  | .fault f => some f
  | .refused _ => none

/-- The refusal, if there is one. -/
def refusalOf : StepOutcome → Option Refusal
  | .next _ => none
  | .fault _ => none
  | .refused r => some r

/-- The next state, where there is one, else the state given. -/
def nextOr (o : StepOutcome) (s : State) : State :=
  match o with
  | .next t => t
  | .fault _ => s
  | .refused _ => s

/-- `VZIP.8 D0, D1` in A32 and in T32 (section 2.1). -/
def zip8A : List Byte := [0x81, 0x01, 0xB2, 0xF3]
def zip8T : List Byte := [0xB2, 0xFF, 0x81, 0x01]

/-! ### Decoding: words written out from the formats (95_test_vectors.md section 2.1) -/

/-- 0xF3B20181 bit by bit: `1111 0011 1 0 11 00 10 0000 0 0011 0 0 0 0001`. -/
theorem test_decode_a1D_bits : decodeWord .A32 0b11110011101100100000000110000001#32 = some (.vzipA1D 0 0 1) := by decide

/-- `VZIP.16 D31, D0`, `VZIP.8 D17, D16`, `VZIP.16 D15, D16`. -/
theorem test_decode_a1D :
    decode .A32 [0x80, 0xF1, 0xF6, 0xF3] = .ok (.vzipA1D 1 31 0) [] ∧
    decode .A32 [0xA0, 0x11, 0xF2, 0xF3] = .ok (.vzipA1D 0 17 16) [] ∧
    decode .A32 [0xA0, 0xF1, 0xB6, 0xF3, 0x55] = .ok (.vzipA1D 1 15 16) [0x55] := by decide

/-- `VZIP.32 Q8, Q15`, `VZIP.32 Q15, Q8`, `VZIP.16 Q7, Q8`. -/
theorem test_decode_a1Q :
    decode .A32 [0xEE, 0x01, 0xFA, 0xF3] = .ok (.vzipA1Q 2 16 30) [] ∧
    decode .A32 [0xE0, 0xE1, 0xFA, 0xF3] = .ok (.vzipA1Q 2 30 16) [] ∧
    decode .A32 [0xE0, 0xE1, 0xB6, 0xF3] = .ok (.vzipA1Q 1 14 16) [] := by decide

/-- `VZIP.16 D2, D3`, `VZIP.8 D17, D16`, `VZIP.8 D5, D5`. -/
theorem test_decode_t1D :
    decode .T32 [0xB6, 0xFF, 0x83, 0x21] = .ok (.vzipT1D 1 2 3) [] ∧
    decode .T32 [0xF2, 0xFF, 0xA0, 0x11] = .ok (.vzipT1D 0 17 16) [] ∧
    decode .T32 [0xB2, 0xFF, 0x85, 0x51] = .ok (.vzipT1D 0 5 5) [] := by decide

/-- `VZIP.8 Q0, Q1`, `VZIP.32 Q8, Q15`, `VZIP.8 Q4, Q4`. -/
theorem test_decode_t1Q :
    decode .T32 [0xB2, 0xFF, 0xC2, 0x01] = .ok (.vzipT1Q 0 0 2) [] ∧
    decode .T32 [0xFA, 0xFF, 0xEE, 0x01] = .ok (.vzipT1Q 2 16 30) [] ∧
    decode .T32 [0xB2, 0xFF, 0xC8, 0x81] = .ok (.vzipT1Q 0 8 8) [] := by decide

/-- The words of section 2.2 that match no row: the other class, bit 4, bit 11, opc2, opc1, bits 21:20, another word. -/
theorem test_decode_rejects :
    decode .T32 [0xB2, 0xF3, 0x81, 0x01] = .notVZIP ∧ decode .T32 [0x81, 0x01, 0xB2, 0xF3] = .notVZIP ∧
    decode .A32 [0x81, 0x01, 0xB2, 0xFF] = .notVZIP ∧ decode .A32 [0x91, 0x01, 0xB2, 0xF3] = .notVZIP ∧
    decode .A32 [0x81, 0x09, 0xB2, 0xF3] = .notVZIP ∧ decode .A32 [0x01, 0x01, 0xB2, 0xF3] = .notVZIP ∧
    decode .A32 [0x81, 0x01, 0xB0, 0xF3] = .notVZIP ∧ decode .A32 [0x81, 0x01, 0x92, 0xF3] = .notVZIP ∧
    decode .A32 [0x00, 0x00, 0xA0, 0xE1] = .notVZIP ∧ decode .A32 [0x81, 0x01, 0xB2] = .truncated ∧
    decode .T32 [0xB2, 0xFF, 0x81] = .truncated := by decide

/-- The encoder on words of section 2.1, and the table's numbering of a T1 row. -/
theorem test_encode :
    encode (.vzipA1D 1 31 0) = [0x80, 0xF1, 0xF6, 0xF3] ∧ encode (.vzipT1Q 2 30 16) = [0xFA, 0xFF, 0xE0, 0xE1] ∧
    decodeTableWord 32 0xFFB25185 = some (.vzipT1D 0 5 5) ∧ decodeTableWord 32 0xF3B201C0 = some (.vzipA1Q 0 0 0) := by
  decide

/-- The ill-formed terms, one for each check of R77: U1, U2 and U3 for each operand (words of section 2.2). -/
theorem test_ill_formed :
    (Instr.vzipA1D 2 0 1).wellFormed = false ∧ (Instr.vzipA1D 3 0 1).wellFormed = false ∧
    (Instr.vzipA1Q 3 0 2).wellFormed = false ∧ (Instr.vzipA1Q 0 1 2).wellFormed = false ∧
    (Instr.vzipA1Q 0 0 3).wellFormed = false ∧ (Instr.vzipT1D 2 0 1).wellFormed = false ∧
    (Instr.vzipT1Q 1 19 18).wellFormed = false ∧ (Instr.vzipT1Q 2 16 30).wellFormed = true := by decide

/-- `VZIP.16 D31, D0` and `VZIP.32 Q8, Q15` as text, both ways (R70, R71), and a T32 line with a condition and a qualifier (R65, R66). -/
theorem test_assembler :
    (disassemble (.vzipA1D 1 31 0)).map asmText = some "VZIP.16 D31, D0" ∧
    (disassemble (.vzipT1Q 2 16 30)).map asmText = some "VZIP.32 Q8, Q15" ∧
    asmText ⟨.T32, some .ne, true, .dt8, .doubles 0 1⟩ = "VZIPNE.W.8 D0, D1" ∧
    assemble ⟨.T32, some .ne, true, .dt8, .doubles 0 1⟩ = some (.vzipT1D 0 0 1) ∧
    assemble ⟨.A32, some .ne, false, .dt8, .doubles 0 1⟩ = none := by decide

/-! ### One step: results (95_test_vectors.md sections 2.3 to 2.5) -/

/-- V1 and X1: `VZIP.8 D0, D1` in A32. -/
theorem test_step_a1D :
    after (step (pair .A32 zip8A)) 0 = some (0x8004#32, 0x1303120211011000#64) ∧
    after (step (pair .A32 zip8A)) 1 = some (0x8004#32, 0x1707160615051404#64) := by decide +kernel

/-- X2, X3 and X4: the enable check, and the decode check before it. -/
theorem test_step_a1D_faults :
    faultOf (step (withCheck .undefined (pair .A32 zip8A))) = some (.undefinedInstruction 0x8000#32 0xF3B20181#32) ∧
    faultOf (step (withCheck .hypTrap (pair .A32 zip8A))) = some (.hypTrap 0x8000#32) ∧
    faultOf (step (withCheck .hypTrap (pair .A32 [0x81, 0x01, 0xBA, 0xF3]))) =
      some (.undefinedInstruction 0x8000#32 0xF3BA0181#32) := by decide +kernel

/-- V5: `VZIP.32 Q0, Q1` in A32, in D registers. -/
theorem test_step_a1Q :
    after (step (quadPair .A32 [0xC2, 0x01, 0xBA, 0xF3])) 0 = some (0x8004#32, 0x1312111003020100#64) ∧
    after (step (quadPair .A32 [0xC2, 0x01, 0xBA, 0xF3])) 1 = some (0x8004#32, 0x1716151407060504#64) ∧
    after (step (quadPair .A32 [0xC2, 0x01, 0xBA, 0xF3])) 2 = some (0x8004#32, 0x1B1A19180B0A0908#64) ∧
    after (step (quadPair .A32 [0xC2, 0x01, 0xBA, 0xF3])) 3 = some (0x8004#32, 0x1F1E1D1C0F0E0D0C#64) := by decide +kernel

/-- K9: `VZIP.8 Q4, Q4` completes and leaves the other registers. -/
theorem test_step_a1Q_same :
    after (step (quadPair .A32 [0xC8, 0x81, 0xB2, 0xF3])) 3 = some (0x8004#32, bytesB') ∧
    after (step (quadPair .A32 [0xC8, 0x81, 0xB2, 0xF3])) 10 = some (0x8004#32, 0#64) := by decide +kernel

/-- K7 in T32: `VZIP.16 D1, D0`, the first operand the higher register. -/
theorem test_step_t1D :
    after (step (pair .T32 [0xB6, 0xFF, 0x80, 0x11])) 1 = some (0x8004#32, 0x0302131201001110#64) ∧
    after (step (pair .T32 [0xB6, 0xFF, 0x80, 0x11])) 0 = some (0x8004#32, 0x0706171605041514#64) := by decide +kernel

/-- X6 and X9: a failed condition hides the enable check and changes no register, `d == m` included. -/
theorem test_step_t1D_condition :
    after (step (withCheck .hypTrap (withConditions [false] false (pair .T32 zip8T)))) 1 = some (0x8004#32, bytesB) ∧
    after (step (withConditions [false] false (pair .T32 [0xB2, 0xFF, 0x80, 0x01]))) 0 = some (0x8004#32, bytesA) := by
  decide +kernel

/-- V3: `VZIP.8 Q0, Q1` in T32, in D registers. -/
theorem test_step_t1Q :
    after (step (quadPair .T32 [0xB2, 0xFF, 0xC2, 0x01])) 0 = some (0x8004#32, 0x1303120211011000#64) ∧
    after (step (quadPair .T32 [0xB2, 0xFF, 0xC2, 0x01])) 1 = some (0x8004#32, 0x1707160615051404#64) ∧
    after (step (quadPair .T32 [0xB2, 0xFF, 0xC2, 0x01])) 2 = some (0x8004#32, 0x1B0B1A0A19091808#64) ∧
    after (step (quadPair .T32 [0xB2, 0xFF, 0xC2, 0x01])) 3 = some (0x8004#32, 0x1F0F1E0E1D0D1C0C#64) := by decide +kernel

/-- X7 and X8 on the 128-bit form: an UNDEFINED encoding (Vd odd) whose condition fails. -/
theorem test_step_t1Q_condition :
    after (step (withConditions [false] false (quadPair .T32 [0xF6, 0xFF, 0xE2, 0x31]))) 3 = some (0x8004#32, bytesB') ∧
    faultOf (step (withConditions [false] true (quadPair .T32 [0xF6, 0xFF, 0xE2, 0x31]))) =
      some (.undefinedInstruction 0x8000#32 0xFFF631E2#32) := by decide +kernel

/-! ### Witnesses: a state and operands that meet the hypotheses of each statement -/

/-- EncodeDecodeAgree, OperandFieldsAssembled: words that decode, at the ends of the register range. -/
theorem witness_decodes :
    decode .A32 [0xA0, 0xF1, 0xB6, 0xF3, 0x55] = .ok (.vzipA1D 1 15 16) [0x55] ∧
    decodeWord .A32 0xF3F6F180#32 = some (.vzipA1D 1 31 0) ∧ decodeWord .T32 0xFFFAE1E0#32 = some (.vzipT1Q 2 30 16) := by
  decide

/-- AtMostOneRowMatches. -/
theorem witness_row : Encoding.a1D.holds .A32 0xF3B20181#32 = true := by decide

/-- OtherFirstHalfwordsRejected: the first halfword 0x0181, and 0xFFB3, one bit from a VZIP one. -/
theorem witness_other_halfword :
    (0x01#8 ++ 0x81#8 : BitVec (8 + 8)) ∉ [0xFFB2#16, 0xFFB6#16, 0xFFBA#16, 0xFFBE#16, 0xFFF2#16, 0xFFF6#16, 0xFFFA#16, 0xFFFE#16] ∧
    (0xFF#8 ++ 0xB3#8 : BitVec (8 + 8)) ∉ [0xFFB2#16, 0xFFB6#16, 0xFFBA#16, 0xFFBE#16, 0xFFF2#16, 0xFFF6#16, 0xFFFA#16, 0xFFFE#16] := by
  decide

/-- AssemblyGivesWord, DisassembleThenAssemble, ConditionIsNotEncoded. -/
theorem witness_assembler :
    DataType.dt16 ≠ DataType.dt32 ∧ (Instr.vzipA1D 2 0 1).undef = true ∧ (Instr.vzipA1Q 2 30 0).undef = false ∧
    (⟨.A32, none, false, .dt8, .doubles 0 1⟩ : AsmLine).iset = .A32 ∧ Cond.eq ≠ Cond.al ∧
    (⟨.T32, none, false, .dt8, .doubles 0 1⟩ : AsmLine).iset = .T32 := by decide

/-- StepRunsDecodedInstruction, and the guards of GuardOrder where the instruction decodes. -/
theorem witness_step_decodes :
    (pair .A32 zip8A).pcAligned = true ∧ (pair .A32 zip8A).fetch = some zip8A ∧
    decode (pair .A32 zip8A).iset zip8A = .ok (.vzipA1D 0 0 1) [] ∧
    (pair .T32 zip8T).pcAligned = true ∧ (pair .T32 zip8T).fetch = some zip8T ∧
    decode (pair .T32 zip8T).iset zip8T = .ok (.vzipT1D 0 0 1) [] := by decide +kernel

/-- MisalignedPcRefused: the two refusals (section 2.2) and a step that completes in each instruction set. -/
theorem witness_misaligned :
    refusalOf (step (atPc 0x8002#32 (pair .A32 zip8A))) = some .misalignedPc ∧ (0x8002#32).toNat % 4 ≠ 0 ∧
    refusalOf (step (atPc 0x8001#32 (pair .T32 zip8T))) = some .misalignedPc ∧ (0x8001#32).toNat % 2 ≠ 0 ∧
    (after (step (pair .A32 zip8A)) 0).isSome = true ∧ (after (step (pair .T32 zip8T)) 0).isSome = true := by decide +kernel

/-- FetchOutsideProgramRefused: an aligned T32 pc whose four bytes would wrap, the first byte missing, and only the last missing. -/
theorem witness_fetch_outside :
    (atPc 0xFFFFFFFE#32 (pair .T32 zip8T)).pcAligned = true ∧ 2 ^ 32 ≤ (0xFFFFFFFE#32).toNat + 3 ∧
    (pair .A32 []).pcAligned = true ∧ (pair .A32 []).params.prog.read 0x8000#32 = none ∧
    (pair .A32 [0x81, 0x01, 0xB2]).params.prog.read (0x8000#32 + BitVec.ofNat 32 3) = none ∧
    refusalOf (step (pair .A32 [0x81, 0x01, 0xB2])) = some .fetchOutsideProgram ∧
    refusalOf (step (atPc 0xFFFFFFFE#32 (pair .T32 zip8T))) = some .fetchOutsideProgram := by decide +kernel

/-- FetchedWordRuns: bytes that are a VZIP word and bytes that are none, in each instruction set, the T32 ones at a pc that is no multiple of 4. -/
theorem witness_fetched_word :
    (pair .A32 zip8A).params.prog.read (0x8000#32 + 3) = some 0xF3#8 ∧ (0x8000#32).toNat + 3 < 2 ^ 32 ∧
    decodeWord .A32 0xF3B20181#32 = some (.vzipA1D 0 0 1) ∧ decodeWord .T32 0xFFB20181#32 = some (.vzipT1D 0 0 1) ∧
    (0xE1A00000#32 &&& 0xFFB30F90#32) ≠ 0xF3B20180#32 ∧ (0xF3B20181#32 &&& 0xFFB30F90#32) ≠ 0xFFB20180#32 ∧
    refusalOf (step (pair .A32 [0x00, 0x00, 0xA0, 0xE1])) = some .notVZIP ∧
    refusalOf (step (pair .T32 [0xB2, 0xF3, 0x81, 0x01])) = some .notVZIP ∧
    (atPc 0x8002#32 (pair .T32 [0x00, 0x00, 0xB2, 0xFF, 0x81, 0x01])).fetch = some zip8T := by decide +kernel

/-- LoadedInstructionRunsNext: the state taken for reset, and the last word of the address space. -/
theorem witness_loaded :
    State.reset.pc.toNat % 4 = 0 ∧ (0xFFFFFFFC#32).toNat % 4 = 0 ∧
    (after (step (State.reset.withFetchWord 32 0xFFB20181)) 0).isSome = true ∧
    (after (step (State.reset.withFetchWord 32 0xF3B201C2)) 0).isSome = true := by decide +kernel

/-- GuardOrder: each hypothesis of its clauses is met. -/
theorem witness_guards :
    (atPc 0x8002#32 (pair .A32 zip8A)).pcAligned = false ∧ (pair .A32 []).fetch = none ∧
    (pair .A32 [0x00, 0x00, 0xA0, 0xE1]).fetch = some [0x00, 0x00, 0xA0, 0xE1] ∧
    decode .A32 [0x00, 0x00, 0xA0, 0xE1] = .notVZIP ∧
    (withConditions [false] true (pair .T32 zip8T)).conditionPassed = false ∧
    (pair .T32 zip8T).conditionPassed = true ∧ (pair .T32 zip8T).params.advsimdCheck = .enabled ∧
    (withCheck .undefined (pair .T32 zip8T)).params.advsimdCheck = .undefined ∧
    (withCheck .hypTrap (pair .T32 zip8T)).params.advsimdCheck = .hypTrap := by decide +kernel

/-- UndefinedEncodingsFault, EnableCheckDecides, SameRegisterTwiceCompletes, ElementSizes: field values on each side of each check. -/
theorem witness_fields :
    (pair .A32 zip8A).conditionPassed = true ∧ (31#5).toNat % 2 = 1 ∧ (30#5).toNat % 2 = 0 ∧ (0#5).toNat % 2 = 0 ∧
    (0b10#2 : BitVec 2) ≠ 0b11#2 ∧ (0b01#2 : BitVec 2) ≠ 0b10#2 ∧ (Instr.vzipA1D 1 31 31).wellFormed = true ∧
    (Instr.vzipT1Q 2 30 0).wellFormed = true ∧ (Instr.vzipA1D 1 31 0).undef = false ∧ (Instr.vzipA1Q 2 30 30).undef = false := by
  decide +kernel

/-- FailedConditionOnlyAdvances, ConditionCheckByInstructionSet: a failed condition, both treatments, both kinds of encoding. -/
theorem witness_condition :
    (withConditions [true, false] true { pair .T32 zip8T with k := 1 }).conditionPassed = false ∧
    (withConditions [false] true (pair .T32 zip8T)).params.undefWhenCondFails = true ∧
    (withConditions [false] false (pair .T32 zip8T)).params.undefWhenCondFails = false ∧
    (Instr.vzipT1D 2 0 1).wellFormed = false ∧ (Instr.vzipT1D 0 0 1).wellFormed = true ∧
    (pair .A32 zip8A).iset = .A32 ∧ (pair .T32 zip8T).iset = .T32 := by decide +kernel

/-- OnlyTheListedFaults: an execution that faults in each way. -/
theorem witness_faults :
    (faultOf (exec (.vzipA1D 2 0 1) (pair .A32 zip8A))).isSome = true ∧
    (faultOf (exec (.vzipT1Q 0 0 2) (withCheck .hypTrap (pair .T32 zip8T)))).isSome = true := by decide +kernel

/-- DoublewordVzipInterleaves, QuadwordVzipInterleaves, OperationWritesZippedSlices, VzipFrame: different operands at the ends of their range. -/
theorem witness_operation :
    (pair .A32 zip8A).conditionPassed = true ∧ (pair .A32 zip8A).params.advsimdCheck = .enabled ∧
    (31#5 : DNum) ≠ 0#5 ∧ (30#5 : DNum) ≠ 0#5 ∧ (Instr.vzipA1Q 0 30 0).wellFormed = true ∧
    (Instr.vzipA1D 0 31 0).wellFormed = true ∧ (Instr.vzipA1D 0 31 0).q = 0#1 ∧ (Instr.vzipA1Q 0 30 0).q = 1#1 ∧
    (after (exec (.vzipA1D 0 31 0) (pair .A32 zip8A)) 31).isSome = true ∧
    (after (exec (.vzipA1Q 2 30 0) (pair .A32 zip8A)) 31).isSome = true ∧
    (after (exec (.vzipT1D 1 0 31) (pair .T32 zip8T)) 31).isSome = true ∧
    (after (exec (.vzipT1Q 2 0 30) (pair .T32 zip8T)) 31).isSome = true := by decide +kernel

/-- QuadRegistersAreDoublePairs: Q15 and its halves D30 and D31. -/
theorem witness_halves : (30#5).toNat = 2 * (15#4).toNat ∧ (31#5).toNat = 2 * (15#4).toNat + 1 := by decide

/-- InvariantKeptByEveryStep: a state that meets the invariant and whose step completes, in each instruction set. -/
theorem witness_invariant :
    (pair .A32 zip8A).Inv ∧ (after (step (pair .A32 zip8A)) 0).isSome = true ∧
    (pair .T32 zip8T).Inv ∧ (after (step (pair .T32 zip8T)) 0).isSome = true := by decide +kernel

/-- A run of one word from 0x8000. -/
def oneWord (text : List Byte) : State :=
  { pair .A32 text with params := { (pair .A32 text).params with endPc := 0x8004#32 } }

/-- RunTakesOneStepPerWord: a run of one word that finishes, and one of none. -/
theorem witness_run :
    (oneWord zip8A).params.endPc = (oneWord zip8A).pc + BitVec.ofNat 32 (4 * 1) ∧ 1 < 2 ^ 30 ∧
    runToEnd 3 (oneWord zip8A) = .finished (nextOr (step (oneWord zip8A)) (oneWord zip8A)) ∧
    runToEnd 0 State.reset = .finished State.reset := by decide +kernel

/-- FaultsArePrecise: a run that faults at its first word. -/
theorem witness_run_faults :
    runToEnd 1 (oneWord [0x81, 0x01, 0xBA, 0xF3]) =
      .faulted (oneWord [0x81, 0x01, 0xBA, 0xF3]) (.undefinedInstruction 0x8000#32 0xF3BA0181#32) := by decide +kernel

/-- The text a run of one word fetches. -/
theorem oneWord_fetch : (oneWord zip8A).fetch = some zip8A := by decide +kernel

/-- DefinedTextRunsToItsEnd: the launch premises for one word. -/
theorem witness_launch_premises : (oneWord zip8A).LaunchPremises 1 := by
  refine ⟨by decide, by decide +kernel, by decide, by decide, by decide, ?_⟩
  intro a h1 h2
  have hcases : a = 0x8000#32 ∨ a = 0x8001#32 ∨ a = 0x8002#32 ∨ a = 0x8003#32 := by
    have h1' : 0x8000 ≤ a.toNat := h1
    have h2' : a.toNat < 0x8004 := h2
    have : a.toNat = 0x8000 ∨ a.toNat = 0x8001 ∨ a.toNat = 0x8002 ∨ a.toNat = 0x8003 := by omega
    rcases this with h | h | h | h
    · exact .inl (BitVec.eq_of_toNat_eq h)
    · exact .inr (.inl (BitVec.eq_of_toNat_eq h))
    · exact .inr (.inr (.inl (BitVec.eq_of_toNat_eq h)))
    · exact .inr (.inr (.inr (BitVec.eq_of_toNat_eq h)))
  rcases hcases with rfl | rfl | rfl | rfl <;> decide +kernel

/-- DefinedTextRunsToItsEnd: the text of that word. -/
theorem witness_defined_text :
    ∀ j < 1, ∃ bytes rest i,
      ({ oneWord zip8A with pc := (oneWord zip8A).pc + BitVec.ofNat 32 (4 * j) } : State).fetch = some bytes ∧
      decode (oneWord zip8A).iset bytes = .ok i rest ∧ i.undef = false := by
  intro j hj
  obtain rfl : j = 0 := by omega
  exact ⟨zip8A, [], .vzipA1D 0 0 1, by decide +kernel, by decide, by decide⟩

end Sys2Proof.Tests
end

section
/-! SUPPORT. The encoded word as a number and below its top bits, the fields of a decoded word, and what a line assembles to. -/

namespace Sys2Proof

open Sys2Proof.Machine

/-! ### Register numbers from their parts -/

/-- `UInt(D:Vd)` from the bit and the four bits it is encoded in (R55). -/
theorem dnum_toNat_of_parts (d : DNum) :
    d.toNat = 16 * (d.extractLsb' 4 1).toNat + (d.extractLsb' 0 4).toNat := by
  rw [← highAndLow_toNat, highAndLow_parts]

theorem dnum_high_toNat (d : DNum) : (d.extractLsb' 4 1).toNat = d.toNat / 16 := by
  have := dnum_toNat_of_parts d
  omega

theorem dnum_low_toNat (d : DNum) : (d.extractLsb' 0 4).toNat = d.toNat % 16 := by
  have := dnum_toNat_of_parts d
  omega

/-- The number of a 128-bit name is half the number of its first D register (R23, R55). -/
theorem quadOf_toNat (d : DNum) : (quadOf d).toNat = d.toNat / 2 := by
  rw [quadOf, BitVec.extractLsb'_toNat, Nat.shiftRight_eq_div_pow]
  omega

theorem two_mul_quadOf_toNat {d : DNum} (h : d.getLsbD 0 = false) : d.toNat = 2 * (quadOf d).toNat := by
  have := (even_iff_low_bit d).mpr h
  rw [quadOf_toNat]
  omega

/-- The field of `<Qd>` holds its number doubled (R68). -/
theorem twice_toNat (i : QNum) : (twice i).toNat = 2 * i.toNat := by
  revert i; decide

/-! ### The encoded word -/

theorem topBits_toNat (iset : Iset) : (topBits iset).toNat = if iset = .A32 then 0x1E7 else 0x1FF := by
  cases iset <;> rfl

/-- An encoded word as the sum of its fields, each at its place (R52, R53, R70). -/
theorem encodeFields_toNat (iset : Iset) (q : BitVec 1) (size : BitVec 2) (d m : DNum) :
    (encodeFields iset q size d m).toNat =
      (topBits iset).toNat * 2 ^ 23 + (d.toNat / 16) * 2 ^ 22 + 3 * 2 ^ 20 + size.toNat * 2 ^ 18 + 2 * 2 ^ 16 +
        (d.toNat % 16) * 2 ^ 12 + 3 * 2 ^ 7 + q.toNat * 2 ^ 6 + (m.toNat / 16) * 2 ^ 5 + m.toNat % 16 := by
  rw [toNat_of_fields, encodeFields_23, encodeFields_22, encodeFields_20, encodeFields_18, encodeFields_16,
    encodeFields_12, encodeFields_11, encodeFields_7, encodeFields_6, encodeFields_5, encodeFields_4, encodeFields_0,
    dnum_high_toNat, dnum_low_toNat, dnum_high_toNat, dnum_low_toNat]
  simp

/-- The instruction set shows in the top nine bits only (R53). -/
theorem encodeFields_low (iset iset' : Iset) (q : BitVec 1) (size : BitVec 2) (d m : DNum) :
    (encodeFields iset q size d m).extractLsb' 0 23 = (encodeFields iset' q size d m).extractLsb' 0 23 := by
  simp [encodeFields, extract_or, extract_placeAt_below]

/-- Two words with the same top nine bits and the same bits below are the same word. -/
theorem eq_of_top_of_low {v w : Word} (htop : v.extractLsb' 23 9 = w.extractLsb' 23 9)
    (hlow : v.extractLsb' 0 23 = w.extractLsb' 0 23) : v = w := by
  have parts : ∀ x : Word, x.extractLsb' 23 9 ++ x.extractLsb' 0 23 = x := fun x => by
    rw [BitVec.extractLsb'_append_extractLsb'_eq_extractLsb' (by rfl)]
    exact BitVec.extractLsb'_eq_self
  rw [← parts v, htop, hlow, parts]

/-- A T1 word is the A1 word of the same fields with bits 27 and 26 set (R59). -/
theorem encodeFields_t32_of_a32 (q : BitVec 1) (size : BitVec 2) (d m : DNum) :
    encodeFields .T32 q size d m = encodeFields .A32 q size d m ||| 0x0C000000#32 := by
  apply eq_of_top_of_low
  · rw [extract_or, encodeFields_23, encodeFields_23]
    decide
  · have clear : (0x0C000000#32).extractLsb' 0 23 = 0#23 := by decide
    rw [extract_or, clear, BitVec.or_zero, encodeFields_low]

/-- An A1 word is the T1 word of the same fields with bits 27 and 26 clear (R59). -/
theorem encodeFields_a32_of_t32 (q : BitVec 1) (size : BitVec 2) (d m : DNum) :
    encodeFields .A32 q size d m = encodeFields .T32 q size d m &&& 0xF3FFFFFF#32 := by
  apply eq_of_top_of_low
  · rw [extract_and, encodeFields_23, encodeFields_23]
    decide
  · have ones : (0xF3FFFFFF#32).extractLsb' 0 23 = BitVec.allOnes 23 := by decide
    rw [extract_and, ones, BitVec.and_allOnes, encodeFields_low]

/-! ### Quadword forms and assembler lines -/

/-- The instructions whose bit `Q` is 1 are those of the two quadword rows. -/
theorem quadword_form_iff (i : Instr) :
    (i = .vzipA1Q i.size i.d i.m ∨ i = .vzipT1Q i.size i.d i.m) ↔ i.q = 1#1 := by
  cases i <;> simp [Instr.q, Instr.size, Instr.d, Instr.m]

/-- An instruction's line names its own registers, and only a defined encoding has one (R71). -/
theorem disassemble_some {i : Instr} {a : AsmLine} (h : disassemble i = some a) :
    i.undef = false ∧ a.regs = registersOf i := by
  unfold disassemble at h
  split at h
  · cases h
  next hu =>
    obtain ⟨dt, -, rfl⟩ := Option.map_eq_some_iff.mp h
    exact ⟨by simpa using hu, rfl⟩

/-- Q registers are named where the bit `Q` is 1, by half the D numbers (R71). -/
theorem registersOf_quads {i : Instr} {x y : QNum} (h : registersOf i = .quads x y) :
    i.q = 1#1 ∧ x = quadOf i.d ∧ y = quadOf i.m := by
  unfold registersOf at h
  split at h
  · cases h
  next hq =>
    cases h
    exact ⟨(BitVec.eq_zero_or_eq_one i.q).resolve_left hq, rfl, rfl⟩

/-- A defined quadword form has even D numbers (R58, R77). -/
theorem even_of_defined_quad {i : Instr} (hu : i.undef = false) (hq : i.q = 1#1) :
    i.d.getLsbD 0 = false ∧ i.m.getLsbD 0 = false := by
  rw [Instr.undef, hq, Laws.undefinedFields_quad] at hu
  simp only [Bool.or_eq_false_iff] at hu
  exact hu.2

/-- The Q registers a line names are those whose doubled numbers are the operand fields (R55, R68). -/
theorem disassemble_quads {i : Instr} {a : AsmLine} {x y : QNum} (h : disassemble i = some a)
    (hr : a.regs = .quads x y) : i.d.toNat = 2 * x.toNat ∧ i.m.toNat = 2 * y.toNat := by
  obtain ⟨hu, hregs⟩ := disassemble_some h
  obtain ⟨hq, rfl, rfl⟩ := registersOf_quads (hregs.symm.trans hr)
  obtain ⟨hd, hm⟩ := even_of_defined_quad hu hq
  exact ⟨two_mul_quadOf_toNat hd, two_mul_quadOf_toNat hm⟩

@[simp] theorem buildDouble_iset (iset : Iset) (size : BitVec 2) (d m : DNum) :
    (buildDouble iset size d m).iset = iset := by
  cases iset <;> rfl

@[simp] theorem buildQuad_iset (iset : Iset) (size : BitVec 2) (d m : DNum) :
    (buildQuad iset size d m).iset = iset := by
  cases iset <;> rfl

theorem encodeWord_buildDouble (iset : Iset) (size : BitVec 2) (d m : DNum) :
    encodeWord (buildDouble iset size d m) = encodeFields iset 0#1 size d m := by
  cases iset <;> rfl

theorem encodeWord_buildQuad (iset : Iset) (size : BitVec 2) (d m : DNum) :
    encodeWord (buildQuad iset size d m) = encodeFields iset 1#1 size d m := by
  cases iset <;> rfl

/-- A line may leave out its condition in either instruction set (R65). -/
theorem conditionAllowed_none (iset : Iset) : conditionAllowed iset none = true := by
  cases iset <;> rfl

/-- What a line on D registers with no condition assembles to (R62, R64). -/
theorem assemble_doubles (iset : Iset) (wide : Bool) (dt : DataType) (i j : DNum) :
    assemble ⟨iset, none, wide, dt, .doubles i j⟩ =
      if dt = .dt32 then none else some (buildDouble iset (sizeOfDataType dt) i j) := by
  simp [assemble, conditionAllowed_none]

/-- What a line on Q registers with no condition assembles to (R63, R68). -/
theorem assemble_quads (iset : Iset) (wide : Bool) (dt : DataType) (i j : QNum) :
    assemble ⟨iset, none, wide, dt, .quads i j⟩ =
      some (buildQuad iset (sizeOfDataType dt) (twice i) (twice j)) := by
  simp [assemble, conditionAllowed_none]

/-! ### The statements of the encoding -/

/-- Settles O6: the formats field by field. -/
theorem formatBits : Obligations.FormatBits := by
  intro i
  refine ⟨?_, encodeFields_22 .., encodeFields_20 .., encodeFields_18 .., encodeFields_16 .., encodeFields_12 ..,
    encodeFields_11 .., encodeFields_7 .., encodeFields_6 .., encodeFields_5 .., encodeFields_4 .., encodeFields_0 ..⟩
  rw [encodeWord, encodeFields_23]
  cases i.iset <;> rfl

/-- Settles O7: the two classes differ in the top nine bits only. -/
theorem t1WordFromA1Word : Obligations.T1WordFromA1Word := by
  intro size d m
  exact ⟨encodeFields_t32_of_a32 0#1 size d m, encodeFields_t32_of_a32 1#1 size d m,
    encodeFields_a32_of_t32 0#1 size d m, encodeFields_a32_of_t32 1#1 size d m⟩

/-- Settles O5: a decoded word is its instruction's encoding, whose fields are known. -/
theorem operandFieldsAssembled : Obligations.OperandFieldsAssembled := by
  intro iset w i h
  obtain rfl := encodeWord_of_decodeWord h
  obtain ⟨-, hD, -, hsize, -, hVd, -, -, hQ, hM, -, hVm⟩ := formatBits i
  rw [hD, hsize, hVd, hQ, hM, hVm]
  exact ⟨dnum_toNat_of_parts i.d, dnum_toNat_of_parts i.m, rfl, esize_eq i.size, quadword_form_iff i,
    quadOf_toNat i.d, quadOf_toNat i.m, fun _ _ _ => disassemble_quads⟩

/-- Settles O10: the assembled instruction's word, as the sum of its fields. -/
theorem assemblyGivesWord : Obligations.AssemblyGivesWord := by
  intro iset wide dt top sz
  have htop : top = (topBits iset).toNat * 2 ^ 23 := by
    rw [topBits_toNat]
    cases iset <;> rfl
  have hsz : sz = (sizeOfDataType dt).toNat := by cases dt <;> rfl
  refine ⟨fun i j hdt => ?_, fun i j => ?_, fun i j => ?_⟩
  · refine ⟨_, (assemble_doubles ..).trans (if_neg hdt), buildDouble_iset .., ?_⟩
    rw [encodeWord_buildDouble, encodeFields_toNat, htop, hsz]
    simp
  · exact (assemble_doubles ..).trans (if_pos rfl)
  · refine ⟨_, assemble_quads .., buildQuad_iset .., ?_⟩
    have hhalf : ∀ n : QNum, 2 * n.toNat / 16 = n.toNat / 8 := fun n => by omega
    rw [encodeWord_buildQuad, encodeFields_toNat, htop, hsz, twice_toNat, twice_toNat, hhalf, hhalf]
    rfl

end Sys2Proof
end

section
/-! SUPPORT. Which encodings are defined, by size and by register numbers, what their execution answers, and the temporary
the operation slices. -/

namespace Sys2Proof

open Sys2Proof.Machine Sys2Proof.Claims

/-! ### Counting field values -/

/-- The number of pairs (D:Vd, M:Vm) that satisfy a test. -/
def countPairs (r : DNum → DNum → Bool) : Nat :=
  (List.range 32).foldl (fun n d =>
    n + (List.range 32).countP fun m => r (BitVec.ofNat 5 d) (BitVec.ofNat 5 m)) 0

/-- Field values are counted size by size. -/
theorem countFields_by_size (p : BitVec 2 → DNum → DNum → Bool) :
    countFields p = countPairs (p 0b00#2) + countPairs (p 0b01#2) + countPairs (p 0b10#2) + countPairs (p 0b11#2) := by
  have hsizes : List.range 4 = [0, 1, 2, 3] := rfl
  simp [countFields, countPairs, hsizes]

theorem countPairs_all : countPairs (fun _ _ => true) = 32 * 32 := by decide +kernel

theorem countPairs_none : countPairs (fun _ _ => false) = 0 := by decide +kernel

theorem countPairs_different : countPairs (fun d m => d != m) = 32 * 31 := by decide +kernel

theorem countPairs_same : countPairs (fun d m => d == m) = 32 := by decide +kernel

theorem countPairs_even_different :
    countPairs (fun d m => !d[0] && !m[0] && d != m) = 16 * 15 := by decide +kernel

theorem countPairs_even_same : countPairs (fun d m => !d[0] && !m[0] && d == m) = 16 := by
  decide +kernel

theorem countPairs_some_odd : countPairs (fun d m => d[0] || m[0]) = 32 * 32 - 16 * 16 := by
  decide +kernel

/-! ### Defined encodings -/

/-- The UNDEFINED checks of a 64-bit encoding look at the size only (R77). -/
theorem undef_double_iff {i : Instr} (hq : i.q = 0#1) : i.undef = true ↔ i.size = 0b11#2 ∨ i.size = 0b10#2 := by
  simp [undef_iff, hq]

/-- The UNDEFINED checks of a 128-bit encoding, with register numbers as numbers (R77). -/
theorem undef_quad_iff {i : Instr} (hq : i.q = 1#1) :
    i.undef = true ↔ i.size = 0b11#2 ∨ i.d.toNat % 2 = 1 ∨ i.m.toNat % 2 = 1 := by
  simp [undef_iff, hq, odd_iff_low_bit]

/-- The sizes of a defined 64-bit encoding (R76). -/
theorem size_of_defined_double {i : Instr} (hu : i.undef = false) (hq : i.q = 0#1) :
    i.size = 0b00#2 ∨ i.size = 0b01#2 := by
  have sizes : ∀ z : BitVec 2, ¬ (z = 0b11#2 ∨ z = 0b10#2) → z = 0b00#2 ∨ z = 0b01#2 := by decide
  exact sizes i.size fun h => by simp [(undef_double_iff hq).mpr h] at hu

/-- The sizes of a defined 128-bit encoding (R76). -/
theorem size_of_defined_quad {i : Instr} (hu : i.undef = false) (hq : i.q = 1#1) :
    i.size = 0b00#2 ∨ i.size = 0b01#2 ∨ i.size = 0b10#2 := by
  have sizes : ∀ z : BitVec 2, z ≠ 0b11#2 → z = 0b00#2 ∨ z = 0b01#2 ∨ z = 0b10#2 := by decide
  exact sizes i.size fun h => by simp [(undef_quad_iff hq).mpr (.inl h)] at hu

/-- Where the condition passes, an UNDEFINED encoding faults whatever the enable check would say (R89, R95). -/
theorem exec_of_undef {i : Instr} {s : State} (hc : s.conditionPassed = true) (hu : i.undef = true) :
    exec i s = .fault (.undefinedInstruction s.pc (encodeWord i)) := by
  rw [exec_eq_guarded, guarded, if_pos hc, if_pos hu]
  rfl

/-- Where the condition passes and the check answers Enabled, an encoding that is not UNDEFINED completes. -/
theorem exec_completes {i : Instr} {s : State} (hc : s.conditionPassed = true) (he : s.params.advsimdCheck = .enabled)
    (hu : ¬ i.undef = true) : ∃ t, exec i s = .next t :=
  ⟨_, exec_of_guards hc (by simpa using hu) he⟩

/-! ### The operation on its temporary -/

theorem operationOf_double {i : Instr} (hq : i.q = 0#1) : operationOf i = vzipD i.size i.d i.m := by
  cases i with
  | vzipA1D | vzipT1D => rfl
  | vzipA1Q | vzipT1Q => cases hq

theorem operationOf_quad {i : Instr} (hq : i.q = 1#1) : operationOf i = vzipQ i.size i.d i.m := by
  cases i with
  | vzipA1Q | vzipT1Q => rfl
  | vzipA1D | vzipT1D => cases hq

section
variable (size : BitVec 2) {d m : DNum} (s : State)

theorem readD_vzipD_first (h : d ≠ m) :
    (vzipD size d m s).readD d = (zipped (esize size) (s.readD d) (s.readD m)).extractLsb' 0 64 := by
  rw [vzipD, if_neg h, State.readD_writeD_ne _ h, State.readD_writeD_same, zipLow]

theorem readD_vzipD_second (h : d ≠ m) :
    (vzipD size d m s).readD m = (zipped (esize size) (s.readD d) (s.readD m)).extractLsb' 64 64 := by
  rw [vzipD, if_neg h, State.readD_writeD_same, zipHigh]

theorem readQ_vzipQ_first (h : quadOf d ≠ quadOf m) :
    (vzipQ size d m s).readQ (quadOf d) =
      (zipped (esize size) (s.readQ (quadOf d)) (s.readQ (quadOf m))).extractLsb' 0 128 := by
  rw [vzipQ, if_neg (ne_of_apply_ne quadOf h), State.readQ_writeQ_ne _ h, State.readQ_writeQ_same, zipLow]

theorem readQ_vzipQ_second (h : quadOf d ≠ quadOf m) :
    (vzipQ size d m s).readQ (quadOf m) =
      (zipped (esize size) (s.readQ (quadOf d)) (s.readQ (quadOf m))).extractLsb' 128 128 := by
  rw [vzipQ, if_neg (ne_of_apply_ne quadOf h), State.readQ_writeQ_same, zipHigh]

/-- The 128-bit operation leaves every Q register but its two operands as it was. -/
theorem readQ_vzipQ_other {n : QNum} (hd : n ≠ quadOf d) (hm : n ≠ quadOf m) :
    (vzipQ size d m s).readQ n = s.readQ n := by
  unfold vzipQ
  split <;> simp [State.readQ_writeQ_ne, hd, hm]

end

/-- Element `f` of the temporary: the two registers in turn, the first at even places (R80). -/
theorem elem_zipped {w size f : Nat} (a b : BitVec w) (hf : f < 2 * (w / size)) :
    elem (zipped size a b) f size = if f % 2 = 0 then elem a (f / 2) size else elem b (f / 2) size := by
  have hn : 2 * (w / size) * size ≤ 2 * w := by
    rw [Nat.mul_assoc]
    exact Nat.mul_le_mul_left 2 (Nat.div_mul_le_self w size)
  have hfit : f * size + size ≤ 2 * w := by
    rw [← Nat.succ_mul]
    exact (Nat.mul_le_mul_right size hf).trans hn
  rw [zipped, elem_zipLoop size a b _ _ f hfit hn, if_pos hf]

/-- The even elements of the temporary are the first register's and its odd elements the second's (R80). -/
theorem extract_zipped {w : Nat} (size : BitVec 2) (a b : BitVec w) :
    ∀ e < w / (8 * 2 ^ size.toNat),
      (zipped (esize size) a b).extractLsb' (2 * e * (8 * 2 ^ size.toNat)) (8 * 2 ^ size.toNat) =
          a.extractLsb' (e * (8 * 2 ^ size.toNat)) (8 * 2 ^ size.toNat) ∧
        (zipped (esize size) a b).extractLsb' ((2 * e + 1) * (8 * 2 ^ size.toNat)) (8 * 2 ^ size.toNat) =
          b.extractLsb' (e * (8 * 2 ^ size.toNat)) (8 * 2 ^ size.toNat) := by
  rw [← esize_eq]
  intro e he
  have heven : elem (zipped (esize size) a b) (2 * e) (esize size) = elem a e (esize size) := by
    rw [elem_zipped a b (by omega), if_pos (by omega), Nat.mul_div_cancel_left e two_pos]
  have hodd : elem (zipped (esize size) a b) (2 * e + 1) (esize size) = elem b e (esize size) := by
    rw [elem_zipped a b (by omega), if_neg (by omega), show (2 * e + 1) / 2 = e by omega]
  exact ⟨heven, hodd⟩

/-! ### The statements about encodings and the operation -/

/-- Settles O27: Z is the temporary the loop leaves. -/
theorem operationWritesZippedSlices : Obligations.OperationWritesZippedSlices := by
  intro s i hc he hwf hne
  have hu : i.undef = false := by simpa [Laws.wellFormed_eq_not_undef] using hwf
  refine ⟨_, exec_of_guards hc hu he, fun hq => ?_, fun hq => ?_⟩
  · rw [operationOf_double hq]
    exact ⟨_, extract_zipped i.size (s.readD i.d) (s.readD i.m), readD_vzipD_first i.size s hne,
      readD_vzipD_second i.size s hne, fun r hd hm => readD_vzipD_other i.size s hd hm⟩
  · rw [operationOf_quad hq]
    obtain ⟨hd, hm⟩ := even_of_defined_quad hu hq
    have hquad : quadOf i.d ≠ quadOf i.m := quadOf_inj hd hm hne
    exact ⟨_, extract_zipped i.size (s.readQ (quadOf i.d)) (s.readQ (quadOf i.m)), readQ_vzipQ_first i.size s hquad,
      readQ_vzipQ_second i.size s hquad, fun n hd hm => readQ_vzipQ_other i.size s hd hm⟩

/-- Settles O19: where the condition passes and the check is Enabled, the UNDEFINED checks alone decide. -/
theorem undefinedEncodingsFault : Obligations.UndefinedEncodingsFault := by
  intro s size d m hc
  refine ⟨fun hbad => ?_, fun hbad => ?_, fun he h3 => ⟨fun h2 => ?_, fun hd hm => ?_⟩⟩
  · exact ⟨exec_of_undef hc ((undef_double_iff rfl).mpr hbad), exec_of_undef hc ((undef_double_iff rfl).mpr hbad)⟩
  · exact ⟨exec_of_undef hc ((undef_quad_iff rfl).mpr hbad), exec_of_undef hc ((undef_quad_iff rfl).mpr hbad)⟩
  · have hgood : ¬ (size = 0b11#2 ∨ size = 0b10#2) := not_or.mpr ⟨h3, h2⟩
    exact ⟨exec_completes hc he (mt (undef_double_iff rfl).mp hgood),
      exec_completes hc he (mt (undef_double_iff rfl).mp hgood)⟩
  · have hgood : ¬ (size = 0b11#2 ∨ d.toNat % 2 = 1 ∨ m.toNat % 2 = 1) := by simp [h3, hd, hm]
    exact ⟨exec_completes hc he (mt (undef_quad_iff rfl).mp hgood),
      exec_completes hc he (mt (undef_quad_iff rfl).mp hgood)⟩

/-- Settles O32: the defined sizes of each variant, and the element size of each. -/
theorem elementSizes : Obligations.ElementSizes := by
  refine ⟨rfl, rfl, rfl, rfl, fun i hu => ⟨fun hq => ?_, fun hq => ?_⟩⟩
  · rcases size_of_defined_double hu hq with h | h <;> rw [h] <;> decide
  · rcases size_of_defined_quad hu hq with h | h | h <;> rw [h] <;> decide

/-- Settles O8: size by size, each test is one on the pair of registers alone. -/
theorem encodingCensus : Obligations.EncodingCensus := by
  have hdouble : undefinedFields 0#1 = fun size _ _ => size == 0b11#2 || size == 0b10#2 := by
    funext size d m
    exact Laws.undefinedFields_double size d m
  have hquad : undefinedFields 1#1 = fun size d m => size == 0b11#2 || (d.getLsbD 0 || m.getLsbD 0) := by
    funext size d m
    exact Laws.undefinedFields_quad size d m
  simp [Obligations.EncodingCensus, countFields_by_size, hdouble, hquad, countPairs_all, countPairs_none,
    countPairs_different, countPairs_same, countPairs_even_different, countPairs_even_same, countPairs_some_odd]

end Sys2Proof
end

section
/-! SUPPORT. What a step answers at each of its guards, in their order, and what the operation leaves in the registers. -/

namespace Sys2Proof

open Sys2Proof.Machine Sys2Proof.Claims

/-! ### A step before its instruction runs -/

theorem step_of_misaligned {s : State} (ha : s.pcAligned = false) : step s = .refused .misalignedPc := by
  simp [step, ha]

section
variable {s : State} (ha : s.pcAligned = true)
include ha

theorem step_of_no_fetch (hf : s.fetch = none) : step s = .refused .fetchOutsideProgram := by
  simp [step, ha, hf]

theorem step_of_notVZIP {bytes : List Byte} (hf : s.fetch = some bytes) (hd : decode s.iset bytes = .notVZIP) :
    step s = .refused .notVZIP := by
  simp [step, ha, hf, hd]

/-- Where the bytes at an aligned pc decode, the step is the instruction's execution (R107). -/
theorem step_eq_exec {bytes rest : List Byte} {i : Instr} (hf : s.fetch = some bytes)
    (hd : decode s.iset bytes = .ok i rest) : step s = exec i s := by
  simp [step, ha, hf, hd]

end

/-! ### The guards of an execution -/

/-- Where the condition fails the enable check has no say, and an UNDEFINED encoding does as the parameter says
(R91, R95). -/
theorem exec_of_failed_condition {i : Instr} {s : State} (hc : s.conditionPassed = false) :
    exec i s =
      if i.undef = true ∧ s.params.undefWhenCondFails = true then .fault (.undefinedInstruction s.pc (encodeWord i))
      else .next s.advance := by
  simp [exec_eq_guarded, guarded, hc, raiseUndefined, raiseException]

/-- Past the first two guards the answer `Undefined` of the enable check is a fault (R92). -/
theorem exec_of_check_undefined {i : Instr} {s : State} (hc : s.conditionPassed = true) (hu : i.undef = false)
    (he : s.params.advsimdCheck = .undefined) : exec i s = .fault (.undefinedInstruction s.pc (encodeWord i)) := by
  rw [exec_eq_guarded, guarded, if_pos hc, hu, State.checkAdvSIMDEnabled, he]
  rfl

/-- Past the first two guards the answer `HypTrap` of the enable check is a fault (R93). -/
theorem exec_of_check_hypTrap {i : Instr} {s : State} (hc : s.conditionPassed = true) (hu : i.undef = false)
    (he : s.params.advsimdCheck = .hypTrap) : exec i s = .fault (.hypTrap s.pc) := by
  rw [exec_eq_guarded, guarded, if_pos hc, hu, State.checkAdvSIMDEnabled, he]
  rfl

/-- The two causes of the Undefined Instruction exception (R94). -/
theorem exec_undefinedInstruction_iff {i : Instr} {s : State} (hc : s.conditionPassed = true) :
    exec i s = .fault (.undefinedInstruction s.pc (encodeWord i)) ↔
      i.undef = true ∨ s.params.advsimdCheck = .undefined := by
  constructor
  · intro h
    rcases exec_fault h with ⟨-, hu | ⟨-, he⟩⟩ | ⟨hf, -⟩
    · exact .inl hu
    · exact .inr he
    · cases hf
  · intro h
    cases hu : i.undef with
    | true => exact exec_of_undef hc hu
    | false => exact exec_of_check_undefined hc hu (h.resolve_left (by simp [hu]))

/-- The one cause of the trap to Hyp mode, which the decode checks come before (R94, R95). -/
theorem exec_hypTrap_iff {i : Instr} {s : State} (hc : s.conditionPassed = true) :
    exec i s = .fault (.hypTrap s.pc) ↔ i.undef = false ∧ s.params.advsimdCheck = .hypTrap := by
  constructor
  · intro h
    rcases exec_fault h with ⟨hf, -⟩ | ⟨-, -, hcauses⟩
    · cases hf
    · exact hcauses
  · rintro ⟨hu, he⟩
    exact exec_of_check_hypTrap hc hu he

/-! ### What the operation leaves in the registers -/

/-- The two halves of the temporary are the interleaving, where a vector is a whole number of pairs of elements (R82). -/
theorem interleaved_zip {w size h : Nat} (hw : w = 2 * h * size) (hpos : 0 < size) (a b : BitVec w) :
    Interleaved size a b (zipLow size a b) (zipHigh size a b) := by
  have hcount : w / size = 2 * h := Nat.div_eq_of_eq_mul_left hpos hw
  have hhalf : w / size / 2 = h := by omega
  intro j hj
  rw [hcount] at hj
  have hlow := elem_zipLow hw hpos a b j hj
  have hhigh := elem_zipHigh hw hpos a b j hj
  rw [hhalf]
  rcases Nat.mod_two_eq_zero_or_one j with hpar | hpar
  · simp only [hpar, if_true] at hlow hhigh ⊢
    exact ⟨hlow, hhigh⟩
  · have hprev : (j - 1) / 2 = j / 2 := by omega
    simp only [hpar, hprev, one_ne_zero, if_false] at hlow hhigh ⊢
    exact ⟨hlow, hhigh⟩

/-- A D register is a whole number of pairs of elements of each defined size (R76). -/
theorem doubleword_in_pairs {size : BitVec 2} (h : size = 0b00#2 ∨ size = 0b01#2) :
    ∃ pairs, 64 = 2 * pairs * esize size := by
  rcases h with rfl | rfl
  · exact ⟨4, rfl⟩
  · exact ⟨2, rfl⟩

/-- A Q register is a whole number of pairs of elements of each defined size (R76). -/
theorem quadword_in_pairs {size : BitVec 2} (h : size = 0b00#2 ∨ size = 0b01#2 ∨ size = 0b10#2) :
    ∃ pairs, 128 = 2 * pairs * esize size := by
  rcases h with rfl | rfl | rfl
  · exact ⟨8, rfl⟩
  · exact ⟨4, rfl⟩
  · exact ⟨2, rfl⟩

theorem esize_pos (size : BitVec 2) : 0 < esize size := by
  rw [esize_eq]
  positivity

/-- An even register number and the next one hold the Q register of half that number (R24). -/
theorem quadAt_of_even (s : State) {d : DNum} (h : d.getLsbD 0 = false) : quadAt s d = s.readQ (quadOf d) := by
  obtain ⟨hlow, hhigh⟩ := halves_of_even h
  rw [quadAt, State.readQ, hlow, hhigh]

/-- The 64-bit operation leaves the interleaving in its two operands (R82). -/
theorem vzipD_interleaved {size : BitVec 2} (hsize : size = 0b00#2 ∨ size = 0b01#2) {d m : DNum} (s : State)
    (h : d ≠ m) :
    Interleaved (esize size) (s.readD d) (s.readD m) ((vzipD size d m s).readD d) ((vzipD size d m s).readD m) := by
  obtain ⟨pairs, hw⟩ := doubleword_in_pairs hsize
  rw [readD_vzipD_first size s h, readD_vzipD_second size s h]
  exact interleaved_zip hw (esize_pos size) _ _

/-- The 128-bit operation leaves the interleaving in its two operands (R82). -/
theorem vzipQ_interleaved {size : BitVec 2} (hsize : size = 0b00#2 ∨ size = 0b01#2 ∨ size = 0b10#2) {d m : DNum}
    (s : State) (hd : d.getLsbD 0 = false) (hm : m.getLsbD 0 = false) (h : d ≠ m) :
    Interleaved (esize size) (quadAt s d) (quadAt s m) (quadAt (vzipQ size d m s) d) (quadAt (vzipQ size d m s) m) := by
  obtain ⟨pairs, hw⟩ := quadword_in_pairs hsize
  have hquad : quadOf d ≠ quadOf m := quadOf_inj hd hm h
  simp only [quadAt_of_even _ hd, quadAt_of_even _ hm]
  rw [readQ_vzipQ_first size s hquad, readQ_vzipQ_second size s hquad]
  exact interleaved_zip hw (esize_pos size) _ _

/-- The operation of a defined encoding leaves every register but its operands as it was (R33). -/
theorem operationOf_othersUnchanged {i : Instr} (hu : i.undef = false) (s : State) :
    OthersUnchanged i.q i.d i.m s (operationOf i s) := by
  intro r hd hm hnext
  rcases BitVec.eq_zero_or_eq_one i.q with hq | hq
  · rw [operationOf_double hq]
    exact readD_vzipD_other i.size s hd hm
  · obtain ⟨hdEven, hmEven⟩ := even_of_defined_quad hu hq
    obtain ⟨hdl, hdh⟩ := halves_of_even hdEven
    obtain ⟨hml, hmh⟩ := halves_of_even hmEven
    obtain ⟨hdNext, hmNext⟩ := hnext hq
    rw [operationOf_quad hq]
    exact readD_vzipQ_other i.size s (hd.trans_eq hdl.symm) (hdNext.trans_eq hdh.symm) (hm.trans_eq hml.symm)
      (hmNext.trans_eq hmh.symm)

/-- The operation of a defined encoding does what the operation pseudocode says (R80 to R82). -/
theorem operationOf_done {i : Instr} (hu : i.undef = false) (s : State) :
    OperationDone i.q i.size i.d i.m s (operationOf i s) := by
  refine ⟨operationOf_othersUnchanged hu s, fun hne hq => ?_, fun hne hq => ?_⟩
  · rw [operationOf_double hq, ← esize_eq]
    exact vzipD_interleaved (size_of_defined_double hu hq) s hne
  · obtain ⟨hd, hm⟩ := even_of_defined_quad hu hq
    rw [operationOf_quad hq, ← esize_eq]
    exact vzipQ_interleaved (size_of_defined_quad hu hq) s hd hm hne

/-- The operation and the advance change nothing outside the registers but the pc and the step index (R27, R33). -/
theorem completed_operation (i : Instr) (s : State) : Completed s (operationOf i s).advance := by
  simp [Completed]

/-! ### The statements of the guards -/

/-- Settles O23: the causes of each fault of an execution, with the decode checks written out. -/
theorem onlyTheListedFaults : Obligations.OnlyTheListedFaults := by
  intro i s
  simp only [← undef_iff, Bool.not_eq_true]
  refine ⟨fun f h => ?_, fun hc => ⟨exec_undefinedInstruction_iff hc, exec_hypTrap_iff hc⟩⟩
  rcases exec_fault h with ⟨hf, hu | ⟨-, he⟩⟩ | ⟨hf, -, -, he⟩
  · exact .inl ⟨hf, .inl hu⟩
  · exact .inl ⟨hf, .inr he⟩
  · exact .inr ⟨hf, he⟩

/-- Settles O18: guard by guard, a step that decodes being its instruction's execution. -/
theorem guardOrder : Obligations.GuardOrder := by
  intro s
  refine ⟨step_of_misaligned, step_of_no_fetch, fun bytes ha hf => ⟨step_of_notVZIP ha hf, fun i rest hd => ?_⟩⟩
  simp only [← undef_iff, Bool.not_eq_true, step_eq_exec ha hf hd]
  refine ⟨fun hc => ⟨fun hfault => ?_, fun hskip => ?_⟩, exec_of_undef, fun hc hu =>
    ⟨exec_of_check_undefined hc hu, exec_of_check_hypTrap hc hu, fun he =>
      ⟨_, exec_of_guards hc hu he, completed_operation i s, operationOf_done hu s⟩⟩⟩
  · exact (exec_of_failed_condition hc).trans (if_pos hfault)
  · exact (exec_of_failed_condition hc).trans (if_neg hskip)

end Sys2Proof
end

section
/-! SUPPORT. The decoder on the bytes of a word, the opcode map, the first halfwords of T32, and the assembler both ways. -/

namespace Sys2Proof

open Sys2Proof.Machine

/-! ### The decoder on the bytes of a word -/

/-- The first halfword of a word that matches a T32 row is one of VZIP's (R54). -/
theorem firstHalfwordOk_of_holds {e : Encoding} {w : Word} (h : e.holds .T32 w = true) :
    firstHalfwordOk (w.extractLsb' 16 16) = true := by
  simp only [Encoding.holds, Bool.and_eq_true, beq_iff_eq] at h
  obtain ⟨hiset, hbits⟩ := h
  have hmask : e.mask.extractLsb' 16 16 = 0xFFB3#16 := by cases e <;> decide
  have hmatch : e.bits.extractLsb' 16 16 = 0xFFB2#16 := by
    cases e with
    | a1D | a1Q => cases hiset
    | t1D | t1Q => decide
  have hhigh := congrArg (BitVec.extractLsb' 16 16) hbits
  rw [extract_and, hmask, hmatch] at hhigh
  exact beq_iff_eq.mpr hhigh

/-- A T32 word whose first halfword is none of VZIP's is not decoded (R60). -/
theorem decodeWord_of_firstHalfword {w : Word} (h : firstHalfwordOk (w.extractLsb' 16 16) = false) :
    decodeWord .T32 w = none := by
  refine decodeWord_none.mpr fun e => Bool.eq_false_iff.mpr fun he => ?_
  rw [firstHalfwordOk_of_holds he] at h
  cases h

/-- Decoding the bytes of a word is decoding the word (R40, R56). -/
theorem decode_bytesOf (iset : Iset) (w : Word) (rest : List Byte) :
    decode iset (bytesOf iset w ++ rest) = .ofWord (decodeWord iset w) rest := by
  cases iset with
  | A32 => simp [bytesOf, decode, wordOfA32_bytes]
  | T32 =>
    simp only [bytesOf, List.cons_append, List.nil_append, decode, halfwordOf_first, halfwordOf_second,
      wordOfT32_halves]
    cases h : firstHalfwordOk (w.extractLsb' 16 16) with
    | true => rfl
    | false => rw [decodeWord_of_firstHalfword h]; rfl

/-- Bytes that decode are the bytes of a word that decodes, and the rest. -/
theorem decode_ok {iset : Iset} {bytes rest : List Byte} {i : Instr} (h : decode iset bytes = .ok i rest) :
    ∃ w, decodeWord iset w = some i ∧ bytes = bytesOf iset w ++ rest := by
  unfold decode at h
  split at h
  next b0 b1 b2 b3 rest' =>
    obtain ⟨hw, rfl⟩ := ofWord_ok h
    exact ⟨_, hw, by rw [bytesOf_wordOfA32]; rfl⟩
  next => cases h
  next b0 b1 tail =>
    split at h
    next =>
      split at h
      next b2 b3 rest' =>
        obtain ⟨hw, rfl⟩ := ofWord_ok h
        exact ⟨_, hw, by rw [bytesOf_wordOfT32]; rfl⟩
      next => cases h
    next => cases h
  next => cases h

/-! ### The opcode map -/

/-- The match value of a row tells it from the other rows (R56). -/
theorem Encoding.bits_injective : Function.Injective Encoding.bits := by
  intro e f
  cases e <;> cases f <;> decide

/-- A word that matches a row is decoded by that row and no other. -/
theorem Encoding.eq_of_holds {e f : Encoding} {iset iset' : Iset} {w : Word} (he : e.holds iset w = true)
    (hf : f.holds iset' w = true) : e = f := by
  simp only [Encoding.holds, Bool.and_eq_true, beq_iff_eq] at he hf
  have hmask : e.mask = f.mask := by cases e <;> cases f <;> rfl
  exact Encoding.bits_injective (by rw [← he.2, ← hf.2, hmask])

/-- The row an instruction stands in. -/
def Instr.encoding : Instr → Encoding
  | .vzipA1D _ _ _ => .a1D
  | .vzipA1Q _ _ _ => .a1Q
  | .vzipT1D _ _ _ => .t1D
  | .vzipT1Q _ _ _ => .t1Q

theorem Instr.encoding_iset (i : Instr) : i.encoding.iset = i.iset := by cases i <;> rfl

theorem Instr.encoding_q (i : Instr) : i.encoding.q = i.q := by cases i <;> rfl

theorem Instr.encoding_build (i : Instr) : i.encoding.build i.size i.d i.m = i := by cases i <;> rfl

theorem holds_encodeWord (i : Instr) : i.encoding.holds i.iset (encodeWord i) = true := by
  rw [encodeWord, ← i.encoding_iset, ← i.encoding_q]
  exact holds_encodeFields ..

/-- The word of an instruction decodes to it, in the instruction set it is encoded in. -/
theorem decodeWord_encodeWord (i : Instr) : decodeWord i.iset (encodeWord i) = some i := by
  cases h : decodeWord i.iset (encodeWord i) with
  | none =>
    have := decodeWord_none.mp h i.encoding
    rw [holds_encodeWord] at this
    cases this
  | some j =>
    obtain ⟨e, he, rfl⟩ := decodeWord_some h
    rw [Encoding.eq_of_holds he (holds_encodeWord i), encodeWord, fieldSize_encodeFields, fieldD_encodeFields,
      fieldM_encodeFields, Instr.encoding_build]

/-- Settles O1: the bytes of an instruction are those of a word that decodes to it. -/
theorem decodeEncodeAgree : Obligations.DecodeEncodeAgree := by
  intro i rest
  rw [encode, decode_bytesOf, decodeWord_encodeWord]
  rfl

/-- Settles O2: the bytes are those of a decoded word, which is its instruction's encoding. -/
theorem encodeDecodeAgree : Obligations.EncodeDecodeAgree := by
  intro iset bytes rest i h
  obtain ⟨w, hw, rfl⟩ := decode_ok h
  obtain rfl := decodeWord_iset hw
  rw [encode, encodeWord_of_decodeWord hw]
  exact ⟨rfl, rfl⟩

/-- Settles O4: the rows share one mask, and their match values differ. -/
theorem atMostOneRowMatches : Obligations.AtMostOneRowMatches :=
  fun _ _ _ _ => Encoding.eq_of_holds

/-- Settles O3: each word is checked by running the decoder. -/
theorem specWordsDecode : Obligations.SpecWordsDecode := by
  unfold Obligations.SpecWordsDecode
  decide

/-! ### The first halfwords of T32 -/

/-- A halfword from the two bytes at rising addresses (R40). -/
theorem halfwordOf_eq_append (b0 b1 : Byte) : halfwordOf b0 b1 = (b1 ++ b0 : BitVec (8 + 8)) := by
  have h := BitVec.setWidth_append_eq_shiftLeft_setWidth_or (w'' := 16) (b := b1) (b' := b0)
  rw [BitVec.setWidth_eq] at h
  exact h.symm

/-- The bits of a halfword that the eight of R54 leave open are D and the size. -/
theorem open_bits_of_halfword (hw : Halfword) :
    hw &&& 0x4C#16 = (hw.extractLsb' 6 1).setWidth 16 <<< 6 ||| (hw.extractLsb' 2 2).setWidth 16 <<< 2 := by
  ext i hi
  interval_cases i <;> simp

/-- A first halfword of VZIP is `1111 1111 1D11 ss10` (R54). -/
theorem eq_of_firstHalfwordOk {hw : Halfword} (h : firstHalfwordOk hw = true) :
    hw = 0xFFB2#16 ||| ((hw.extractLsb' 6 1).setWidth 16 <<< 6 ||| (hw.extractLsb' 2 2).setWidth 16 <<< 2) := by
  have hfixed : hw &&& 0xFFB3#16 = 0xFFB2#16 := beq_iff_eq.mp h
  have hall : 0xFFB3#16 ||| 0x4C#16 = BitVec.allOnes 16 := by decide
  rw [← open_bits_of_halfword, ← hfixed, ← BitVec.and_or_distrib_left, hall, BitVec.and_allOnes]

/-- The first halfwords of VZIP are the eight of R54. -/
theorem mem_of_firstHalfwordOk {hw : Halfword} (h : firstHalfwordOk hw = true) :
    hw ∈ [0xFFB2#16, 0xFFB6#16, 0xFFBA#16, 0xFFBE#16, 0xFFF2#16, 0xFFF6#16, 0xFFFA#16, 0xFFFE#16] := by
  rw [eq_of_firstHalfwordOk h]
  generalize hw.extractLsb' 6 1 = bitD
  generalize hw.extractLsb' 2 2 = ss
  revert bitD ss
  decide

/-- Settles O9: the decoder looks at the first halfword alone before it refuses. -/
theorem otherFirstHalfwordsRejected : Obligations.OtherFirstHalfwordsRejected := by
  intro b0 b1 rest hother
  rw [← halfwordOf_eq_append] at hother
  simp [decode, mt mem_of_firstHalfwordOk hother]

/-! ### The assembler both ways -/

/-- A size that is not RESERVED is the field of its data type (R64). -/
theorem dataTypeOfSize_some {size : BitVec 2} (h : size = 0b00#2 ∨ size = 0b01#2 ∨ size = 0b10#2) :
    ∃ dt, dataTypeOfSize size = some dt ∧ sizeOfDataType dt = size := by
  rcases h with rfl | rfl | rfl
  · exact ⟨.dt8, rfl, rfl⟩
  · exact ⟨.dt16, rfl, rfl⟩
  · exact ⟨.dt32, rfl, rfl⟩

/-- The line of a defined encoding, with the data type of its size (R71). -/
theorem disassemble_of_defined {i : Instr} (hu : i.undef = false) :
    ∃ dt, sizeOfDataType dt = i.size ∧ disassemble i = some ⟨i.iset, none, false, dt, registersOf i⟩ := by
  have hsize : i.size = 0b00#2 ∨ i.size = 0b01#2 ∨ i.size = 0b10#2 := by
    rcases BitVec.eq_zero_or_eq_one i.q with hq | hq
    · exact (size_of_defined_double hu hq).imp_right .inl
    · exact size_of_defined_quad hu hq
  obtain ⟨dt, hdt, hfield⟩ := dataTypeOfSize_some hsize
  exact ⟨dt, hfield, by simp [disassemble, hu, hdt]⟩

theorem buildDouble_fields {i : Instr} (hq : i.q = 0#1) : buildDouble i.iset i.size i.d i.m = i := by
  cases i with
  | vzipA1D | vzipT1D => rfl
  | vzipA1Q | vzipT1Q => cases hq

theorem buildQuad_fields {i : Instr} (hq : i.q = 1#1) : buildQuad i.iset i.size i.d i.m = i := by
  cases i with
  | vzipA1Q | vzipT1Q => rfl
  | vzipA1D | vzipT1D => cases hq

/-- The 64-bit variant has no 32-bit elements (R64, R69). -/
theorem dataType_of_defined_double {i : Instr} (hu : i.undef = false) (hq : i.q = 0#1) {dt : DataType}
    (hdt : sizeOfDataType dt = i.size) : dt ≠ .dt32 := by
  rintro rfl
  rw [Instr.undef, hq, ← hdt, Laws.undefinedFields_double] at hu
  cases hu

/-- The line that names an instruction's own registers and the data type of its size assembles to it. -/
theorem assemble_registersOf {i : Instr} (hu : i.undef = false) {dt : DataType} (hdt : sizeOfDataType dt = i.size) :
    assemble ⟨i.iset, none, false, dt, registersOf i⟩ = some i := by
  rcases BitVec.eq_zero_or_eq_one i.q with hq | hq
  · rw [registersOf, if_pos hq, assemble_doubles, if_neg (dataType_of_defined_double hu hq hdt), hdt,
      buildDouble_fields hq]
  · obtain ⟨hd, hm⟩ := even_of_defined_quad hu hq
    have htwice : ∀ {d : DNum}, d.getLsbD 0 = false → twice (d.extractLsb' 1 4) = d := fun h => (halves_of_even h).1
    rw [registersOf, if_neg (by simp [hq]), assemble_quads, hdt, htwice hd, htwice hm, buildQuad_fields hq]

/-- Settles O11: the line of a defined encoding holds its size and its own registers. -/
theorem disassembleThenAssemble : Obligations.DisassembleThenAssemble := by
  refine fun i => ⟨fun hu => if_pos hu, fun hu => ?_⟩
  obtain ⟨dt, hdt, hline⟩ := disassemble_of_defined hu
  exact ⟨_, hline, rfl, assemble_registersOf hu hdt⟩

/-- Two lines that differ in their conditions alone assemble alike where both conditions are allowed (R65). -/
theorem assemble_of_conditionAllowed (a : AsmLine) {c c' : Option Cond} (hc : conditionAllowed a.iset c = true)
    (hc' : conditionAllowed a.iset c' = true) : assemble { a with c := c } = assemble { a with c := c' } := by
  simp [assemble, hc, hc']

/-- Settles O12: the condition decides whether a line assembles, and nothing else. -/
theorem conditionIsNotEncoded : Obligations.ConditionIsNotEncoded := by
  refine fun a c => ⟨fun hi hc => ?_, fun hi => ?_, fun hi => ?_⟩
  · have hforbidden : conditionAllowed a.iset (some c) = false := by
      rw [hi]
      exact beq_eq_false_iff_ne.mpr hc
    simp [assemble, hforbidden]
  · exact assemble_of_conditionAllowed a (by rw [hi]; rfl) (conditionAllowed_none _)
  · exact assemble_of_conditionAllowed a (by rw [hi]; rfl) (conditionAllowed_none _)

end Sys2Proof
end

section
/-! SUPPORT. Alignment and the fetch: what a step runs at a pc, and what every completed step keeps. -/

namespace Sys2Proof

open Sys2Proof.Machine Sys2Proof.Claims

/-! ### Alignment -/

/-- A pc that is a multiple of 4 is aligned in either instruction set (R41). -/
theorem pcAligned_of_word_aligned {s : State} (h : s.pc.toNat % 4 = 0) : s.pcAligned = true := by
  cases hi : s.iset with
  | A32 => exact (pcAligned_a32_iff hi).mpr h
  | T32 => exact (pcAligned_t32_iff hi).mpr (by omega)

/-- A completed step leaves an aligned pc (R27, R41). -/
theorem step_next_aligned {s t : State} (h : step s = .next t) : t.pcAligned = true := by
  obtain ⟨hpc, hiset, -⟩ := step_next_frame h
  rw [pcAligned_four_on hpc hiset]
  exact (step_next h).1

/-- Settles O36: a completed step keeps the text and moves the pc by four bytes. -/
theorem invariantKeptByEveryStep : Obligations.InvariantKeptByEveryStep := by
  intro s t hinv h
  obtain ⟨-, -, -, hparams, -⟩ := step_next_frame h
  exact ⟨hparams ▸ hinv.1, step_next_aligned h⟩

/-- Settles O37: the text is empty and the pc is 0x8000. -/
theorem invariantAtReset : Obligations.InvariantAtReset :=
  ⟨State.reset_prog_wf, pcAligned_of_word_aligned rfl⟩

/-- Settles O14: alignment is tested first, and a completed step keeps it. -/
theorem misalignedPcRefused : Obligations.MisalignedPcRefused := by
  refine fun s => ⟨fun hi h => ?_, fun hi h => ?_, fun t ht => ?_⟩
  · exact step_of_misaligned (Bool.eq_false_iff.mpr (mt (pcAligned_a32_iff hi).mp h))
  · exact step_of_misaligned (Bool.eq_false_iff.mpr (mt (pcAligned_t32_iff hi).mp h))
  · have hs := (step_next ht).1
    have ht' := step_next_aligned ht
    obtain ⟨-, hiset, -⟩ := step_next_frame ht
    exact ⟨fun hi => ⟨(pcAligned_a32_iff hi).mp hs, (pcAligned_a32_iff (hiset.trans hi)).mp ht'⟩,
      fun hi => ⟨(pcAligned_t32_iff hi).mp hs, (pcAligned_t32_iff (hiset.trans hi)).mp ht'⟩⟩

/-! ### The fetch -/

/-- Four bytes that would wrap are not fetched (R39). -/
theorem fetch_of_wrap {s : State} (h : 2 ^ 32 ≤ s.pc.toNat + 3) : s.fetch = none := if_pos h

/-- Four listed bytes that do not wrap are fetched (R39). -/
theorem fetch_of_listed {s : State} {b0 b1 b2 b3 : Byte} (hwrap : s.pc.toNat + 3 < 2 ^ 32)
    (h0 : s.params.prog.read s.pc = some b0) (h1 : s.params.prog.read (s.pc + 1) = some b1)
    (h2 : s.params.prog.read (s.pc + 2) = some b2) (h3 : s.params.prog.read (s.pc + 3) = some b3) :
    s.fetch = some [b0, b1, b2, b3] := by
  rw [State.fetch, if_neg (by omega), h0, h1, h2, h3]

/-- A fetch that gives bytes gives the four listed from the pc on (R39). -/
theorem fetch_some {s : State} {bytes : List Byte} (h : s.fetch = some bytes) :
    ∃ b0 b1 b2 b3, bytes = [b0, b1, b2, b3] ∧ s.params.prog.read s.pc = some b0 ∧
      s.params.prog.read (s.pc + 1) = some b1 ∧ s.params.prog.read (s.pc + 2) = some b2 ∧
      s.params.prog.read (s.pc + 3) = some b3 := by
  unfold State.fetch at h
  split at h
  · cases h
  · split at h
    next b0 b1 b2 b3 h0 h1 h2 h3 =>
      cases h
      exact ⟨b0, b1, b2, b3, rfl, h0, h1, h2, h3⟩
    next => cases h

/-- Where one of the four bytes is missing nothing is fetched (R39). -/
theorem fetch_of_missing_byte {s : State} {i : Nat} (hi : i < 4)
    (hmissing : s.params.prog.read (s.pc + BitVec.ofNat 32 i) = none) : s.fetch = none := by
  refine Option.eq_none_iff_forall_ne_some.mpr fun bytes hf => ?_
  obtain ⟨b0, b1, b2, b3, -, h0, h1, h2, h3⟩ := fetch_some hf
  have hlisted : ∃ b, s.params.prog.read (s.pc + BitVec.ofNat 32 i) = some b := by
    interval_cases i
    · exact ⟨b0, by rw [BitVec.add_zero, h0]⟩
    · exact ⟨b1, h1⟩
    · exact ⟨b2, h2⟩
    · exact ⟨b3, h3⟩
  obtain ⟨b, hb⟩ := hlisted
  rw [hmissing] at hb
  cases hb

/-- Settles O15: a fetch answers nothing where it would wrap or a byte is missing. -/
theorem fetchOutsideProgramRefused : Obligations.FetchOutsideProgramRefused := by
  exact fun s ha => ⟨fun hwrap => step_of_no_fetch ha (fetch_of_wrap hwrap),
    fun i hi hmissing => step_of_no_fetch ha (fetch_of_missing_byte hi hmissing)⟩

/-- Settles O13: alignment, fetch and decoding are all that a step does before the execution. -/
theorem stepRunsDecodedInstruction : Obligations.StepRunsDecodedInstruction :=
  fun _ _ _ _ ha hf hd => step_eq_exec ha hf hd

/-! ### The fetched word -/

/-- The word of four bytes at rising addresses: one little-endian word in A32, two little-endian halfwords, the first
the upper one, in T32 (R40). -/
def fetchedWord (iset : Iset) (b0 b1 b2 b3 : Byte) : Word :=
  if iset = .A32 then (b3 ++ b2 ++ b1 ++ b0 : BitVec (8 + 8 + 8 + 8)) else (b1 ++ b0 ++ b3 ++ b2 : BitVec (8 + 8 + 8 + 8))

theorem fetchedWord_a32 (b0 b1 b2 b3 : Byte) : fetchedWord .A32 b0 b1 b2 b3 = wordOfA32 b0 b1 b2 b3 := by
  have h := BitVec.setWidth_append_append_append_eq_shiftLeft_setWidth_or (w'''' := 32) (b := b3) (b' := b2) (b'' := b1)
    (b''' := b0)
  rw [BitVec.setWidth_eq] at h
  rw [wordOfA32, placeAt, placeAt, placeAt, placeAt, BitVec.shiftLeft_zero]
  exact h

/-- `hw1 : hw2` is the first halfword above the second (R40, R53). -/
theorem wordOfT32_eq_append (hw1 hw2 : Halfword) : wordOfT32 hw1 hw2 = (hw1 ++ hw2 : BitVec (16 + 16)) := by
  have h := BitVec.setWidth_append_eq_shiftLeft_setWidth_or (w'' := 32) (b := hw1) (b' := hw2)
  rw [BitVec.setWidth_eq] at h
  rw [wordOfT32, placeAt, placeAt, BitVec.shiftLeft_zero]
  exact h.symm

theorem fetchedWord_t32 (b0 b1 b2 b3 : Byte) :
    fetchedWord .T32 b0 b1 b2 b3 = wordOfT32 (halfwordOf b0 b1) (halfwordOf b2 b3) := by
  have hassoc : ((b1 ++ b0 : BitVec (8 + 8)) ++ (b3 ++ b2 : BitVec (8 + 8)) : BitVec (8 + 8 + (8 + 8))) =
      (b1 ++ b0 ++ b3 ++ b2 : BitVec (8 + 8 + 8 + 8)) := by
    rw [BitVec.append_assoc (x₁ := b1 ++ b0)]
    rfl
  rw [wordOfT32_eq_append, halfwordOf_eq_append, halfwordOf_eq_append]
  exact hassoc.symm

/-- The bytes of the fetched word are the fetched bytes. -/
theorem bytesOf_fetchedWord (iset : Iset) (b0 b1 b2 b3 : Byte) :
    bytesOf iset (fetchedWord iset b0 b1 b2 b3) = [b0, b1, b2, b3] := by
  cases iset with
  | A32 => rw [fetchedWord_a32, bytesOf_wordOfA32]
  | T32 => rw [fetchedWord_t32, bytesOf_wordOfT32]

/-- A fetch gives the bytes of a word. -/
theorem word_of_fetch {s : State} {bytes : List Byte} (h : s.fetch = some bytes) : ∃ w, bytes = bytesOf s.iset w := by
  obtain ⟨b0, b1, b2, b3, rfl, -⟩ := fetch_some h
  exact ⟨_, (bytesOf_fetchedWord s.iset b0 b1 b2 b3).symm⟩

section
variable {s : State} {w : Word} (ha : s.pcAligned = true) (hf : s.fetch = some (bytesOf s.iset w))
include ha hf

/-- Where the bytes of a word are fetched, the step runs the instruction the word is (R107). -/
theorem step_of_fetched_word {i : Instr} (hw : decodeWord s.iset w = some i) : step s = exec i s :=
  step_eq_exec ha hf (rest := []) (by rw [← List.append_nil (bytesOf s.iset w), decode_bytesOf, hw]; rfl)

/-- Where the bytes of a word are fetched and it matches no row, the step is refused (R57). -/
theorem step_of_other_word (hw : decodeWord s.iset w = none) : step s = .refused .notVZIP :=
  step_of_notVZIP ha hf (by rw [← List.append_nil (bytesOf s.iset w), decode_bytesOf, hw]; rfl)

end

/-- What a row of an instruction set requires of the bits its class holds constant, bit 6 left open (R57). -/
theorem class_bits_of_holds {e : Encoding} {iset : Iset} {w : Word} (h : e.holds iset w = true) :
    w &&& 0xFFB30F90#32 = if iset = .A32 then 0xF3B20180#32 else 0xFFB20180#32 := by
  simp only [Encoding.holds, Bool.and_eq_true, beq_iff_eq] at h
  obtain ⟨rfl, hbits⟩ := h
  have hmask : 0xFFB30F90#32 = e.mask &&& 0xFFB30F90#32 := by cases e <;> decide
  rw [hmask, ← BitVec.and_assoc, hbits]
  cases e <;> decide

/-- A word whose constant bits are not its class's is not decoded (R57). -/
theorem decodeWord_of_class_bits {iset : Iset} {w : Word}
    (h : w &&& 0xFFB30F90#32 ≠ if iset = .A32 then 0xF3B20180#32 else 0xFFB20180#32) : decodeWord iset w = none :=
  decodeWord_none.mpr fun _ => Bool.eq_false_iff.mpr (mt class_bits_of_holds h)

/-- Settles O16: the fetched bytes are those of the word the statement puts together. -/
theorem fetchedWordRuns : Obligations.FetchedWordRuns := by
  intro s b0 b1 b2 b3 ha hwrap h0 h1 h2 h3 w
  have hf : s.fetch = some (bytesOf s.iset w) :=
    (fetch_of_listed hwrap h0 h1 h2 h3).trans (congrArg some (bytesOf_fetchedWord s.iset b0 b1 b2 b3).symm)
  exact ⟨fun i hw => step_of_fetched_word ha hf hw, fun hw => step_of_other_word ha hf (decodeWord_of_class_bits hw)⟩

/-! ### The load of an instruction -/

theorem tableWord_toNat (w : Word) : tableWord 32 w.toNat = w := by
  rw [tableWord, Nat.mod_eq_of_lt w.isLt, BitVec.ofNat_toNat, BitVec.setWidth_eq]

/-- The instruction set of an encoded word, told from its top nine bits (R52, R53). -/
theorem tableIset_encodeWord (i : Instr) : tableIset (encodeWord i) = i.iset := by
  rw [tableIset, encodeWord, encodeFields_23]
  cases i.iset <;> rfl

theorem withFetchWord_encodeWord_iset (s : State) (i : Instr) :
    (s.withFetchWord 32 (encodeWord i).toNat).iset = i.iset := by
  simp [State.withFetchWord, tableWord_toNat, tableIset_encodeWord]

theorem withFetchWord_encodeWord_prog (s : State) (i : Instr) :
    (s.withFetchWord 32 (encodeWord i).toNat).params.prog = s.params.prog.load s.pc (encode i) := by
  simp [State.withFetchWord, tableWord_toNat, tableIset_encodeWord, encode]

/-- An encoding is four bytes. -/
theorem encode_four_bytes (i : Instr) : ∃ b0 b1 b2 b3, encode i = [b0, b1, b2, b3] := by
  rw [encode]
  cases i.iset with
  | A32 => exact ⟨_, _, _, _, rfl⟩
  | T32 => exact ⟨_, _, _, _, rfl⟩

/-- After the load of an instruction its bytes are fetched. -/
theorem fetch_withFetchWord {s : State} (h : s.pc.toNat % 4 = 0) (i : Instr) :
    (s.withFetchWord 32 (encodeWord i).toNat).fetch = some (encode i) := by
  obtain ⟨b0, b1, b2, b3, hbytes⟩ := encode_four_bytes i
  obtain ⟨h0, h1, h2, h3⟩ := Memory.read_load_four s.params.prog s.pc b0 b1 b2 b3
  rw [← hbytes, ← withFetchWord_encodeWord_prog s i] at h0 h1 h2 h3
  have hwrap : s.pc.toNat + 3 < 2 ^ 32 := by omega
  rw [hbytes]
  exact fetch_of_listed hwrap h0 h1 h2 h3

/-- Settles O17: the loaded word decodes to the instruction, and its bytes are what the next step fetches. -/
theorem loadedInstructionRunsNext : Obligations.LoadedInstructionRunsNext := by
  intro s i h
  have hdecode : decode i.iset (encode i) = .ok i [] := by
    rw [← List.append_nil (encode i)]
    exact decodeEncodeAgree i []
  have haligned : (s.withFetchWord 32 (encodeWord i).toNat).pcAligned = true := pcAligned_of_word_aligned h
  refine ⟨?_, rfl, step_eq_exec haligned (fetch_withFetchWord h i) (rest := []) ?_⟩
  · rw [encode] at hdecode
    simp only [decodeTableWord, tableWord_toNat, tableIset_encodeWord, hdecode]
  · rw [withFetchWord_encodeWord_iset]
    exact hdecode

/-! ### The named system state -/

theorem operationOf_with_sys (i : Instr) (s : State) (x : SystemState) :
    operationOf i { s with sys := x } = { operationOf i s with sys := x } := by
  rcases BitVec.eq_zero_or_eq_one i.q with hq | hq
  · rw [operationOf_double hq, vzipD, vzipD]
    split <;> rfl
  · rw [operationOf_quad hq, vzipQ, vzipQ]
    split <;> rfl

/-- An execution neither reads nor writes the named system state (R30, R33). -/
theorem exec_with_sys (i : Instr) (s : State) (x : SystemState) :
    exec i { s with sys := x } = mapNext (fun t => { t with sys := x }) (exec i s) := by
  cases hc : s.conditionPassed with
  | false =>
    rw [exec_of_failed_condition hc, exec_of_failed_condition (s := { s with sys := x }) hc, apply_ite (mapNext _)]
    rfl
  | true =>
    cases hu : i.undef with
    | true => rw [exec_of_undef hc hu, exec_of_undef (s := { s with sys := x }) hc hu]; rfl
    | false =>
      cases he : s.params.advsimdCheck with
      | enabled =>
        rw [exec_of_guards hc hu he, exec_of_guards (s := { s with sys := x }) hc hu he, operationOf_with_sys]
        rfl
      | undefined =>
        rw [exec_of_check_undefined hc hu he, exec_of_check_undefined (s := { s with sys := x }) hc hu he]
        rfl
      | hypTrap =>
        rw [exec_of_check_hypTrap hc hu he, exec_of_check_hypTrap (s := { s with sys := x }) hc hu he]
        rfl

/-- Settles O35: alignment, fetch and decoding look at the pc, the instruction set and the text alone. -/
theorem systemStateOnlyThroughParameters : Obligations.SystemStateOnlyThroughParameters := by
  intro s x
  cases ha : s.pcAligned with
  | false => rw [step_of_misaligned ha, step_of_misaligned (s := { s with sys := x }) ha]; rfl
  | true =>
    cases hf : s.fetch with
    | none => rw [step_of_no_fetch ha hf, step_of_no_fetch (s := { s with sys := x }) ha hf]; rfl
    | some bytes =>
      obtain ⟨w, rfl⟩ := word_of_fetch hf
      cases hw : decodeWord s.iset w with
      | none => rw [step_of_other_word ha hf hw, step_of_other_word (s := { s with sys := x }) ha hf hw]; rfl
      | some i =>
        rw [step_of_fetched_word ha hf hw, step_of_fetched_word (s := { s with sys := x }) ha hf hw, exec_with_sys]

end Sys2Proof
end

section
/-! SUPPORT. What an execution completes with in each of the four encodings, and the statements of the guards. -/

namespace Sys2Proof

open Sys2Proof.Machine Sys2Proof.Claims

/-! ### The statements of the guards -/

/-- A well-formed instruction is no UNDEFINED encoding (R58, R77). -/
theorem undef_of_wellFormed {i : Instr} (h : i.wellFormed = true) : i.undef = false := by
  simpa [Laws.wellFormed_eq_not_undef] using h

/-- Settles O20: past the first two guards the enable check decides. -/
theorem enableCheckDecides : Obligations.EnableCheckDecides := by
  intro i s hc hwf
  have hu := undef_of_wellFormed hwf
  exact ⟨exec_of_check_undefined hc hu, exec_of_check_hypTrap hc hu, fun he => ⟨_, exec_of_guards hc hu he⟩⟩

/-- Settles O21: a failed condition leaves the advance, or the fault of an UNDEFINED encoding. -/
theorem failedConditionOnlyAdvances : Obligations.FailedConditionOnlyAdvances := by
  intro i s hc
  have hexec := exec_of_failed_condition (i := i) hc
  refine ⟨fun hwf => hexec.trans (if_neg ?_), fun _ hparam => hexec.trans (if_neg ?_),
    fun hwf hparam => hexec.trans (if_pos ⟨?_, hparam⟩)⟩
  · simp [undef_of_wellFormed hwf]
  · simp [hparam]
  · simpa [Laws.wellFormed_eq_not_undef] using hwf

/-- Settles O22: in T32 the list `true, …, true, b` gives `b` at the step index. -/
theorem conditionCheckByInstructionSet : Obligations.ConditionCheckByInstructionSet := by
  refine fun s => ⟨fun hi => ?_, fun hi b => ?_⟩
  · simp [State.conditionPassed, hi]
  · simp [State.conditionPassed, condResult, hi]

/-! ### The statements of the operation -/

section
variable {i : Instr} {s : State} (hc : s.conditionPassed = true) (hu : i.undef = false)
  (he : s.params.advsimdCheck = .enabled)
include hc hu he

/-- Where all three guards let it, an instruction completes and the operation is done (R95). -/
theorem exec_done : ∃ t, exec i s = .next t ∧ Completed s t ∧ OperationDone i.q i.size i.d i.m s t :=
  ⟨_, exec_of_guards hc hu he, completed_operation i s, operationOf_done hu s⟩

/-- Two different D registers end up holding the interleaving (R82). -/
theorem exec_interleaves_double (hq : i.q = 0#1) (hne : i.d ≠ i.m) :
    ∃ t, exec i s = .next t ∧ Completed s t ∧ OthersUnchanged 0#1 i.d i.m s t ∧
      Interleaved (8 * 2 ^ i.size.toNat) (s.readD i.d) (s.readD i.m) (t.readD i.d) (t.readD i.m) := by
  obtain ⟨t, hexec, hcompleted, hothers, hdouble, -⟩ := exec_done hc hu he
  exact ⟨t, hexec, hcompleted, hq ▸ hothers, hdouble hne hq⟩

/-- Two different Q registers end up holding the interleaving (R82). -/
theorem exec_interleaves_quad (hq : i.q = 1#1) (hne : i.d ≠ i.m) :
    ∃ t, exec i s = .next t ∧ Completed s t ∧ OthersUnchanged 1#1 i.d i.m s t ∧
      Interleaved (8 * 2 ^ i.size.toNat) (quadAt s i.d) (quadAt s i.m) (quadAt t i.d) (quadAt t i.m) := by
  obtain ⟨t, hexec, hcompleted, hothers, -, hquad⟩ := exec_done hc hu he
  exact ⟨t, hexec, hcompleted, hq ▸ hothers, hquad hne hq⟩

/-- An instruction that completes leaves the registers it does not name as they were (R33). -/
theorem exec_othersUnchanged :
    ∃ t, exec i s = .next t ∧ Completed s t ∧ OthersUnchanged i.q i.d i.m s t := by
  obtain ⟨t, hexec, hcompleted, hothers, -⟩ := exec_done hc hu he
  exact ⟨t, hexec, hcompleted, hothers⟩

end

/-- A 64-bit encoding with 8-bit or 16-bit elements is defined (R77). -/
theorem defined_double {i : Instr} (hq : i.q = 0#1) (h3 : i.size ≠ 0b11#2) (h2 : i.size ≠ 0b10#2) : i.undef = false :=
  Bool.eq_false_iff.mpr (mt (undef_double_iff hq).mp (not_or.mpr ⟨h3, h2⟩))

/-- A 128-bit encoding with even register numbers and a size that is not RESERVED is defined (R77). -/
theorem defined_quad {i : Instr} (hq : i.q = 1#1) (h3 : i.size ≠ 0b11#2) (hd : i.d.toNat % 2 = 0)
    (hm : i.m.toNat % 2 = 0) : i.undef = false :=
  Bool.eq_false_iff.mpr (mt (undef_quad_iff hq).mp (by simp [h3, hd, hm]))

/-- Settles O24: the encodings are defined, and the operation is the same in both classes. -/
theorem doublewordVzipInterleaves : Obligations.DoublewordVzipInterleaves := by
  intro s size d m hc he hsize hne
  have h3 : size ≠ 0b11#2 := by rcases hsize with rfl | rfl <;> decide
  have h2 : size ≠ 0b10#2 := by rcases hsize with rfl | rfl <;> decide
  exact ⟨exec_interleaves_double (i := .vzipA1D size d m) hc (defined_double rfl h3 h2) he rfl hne,
    exec_interleaves_double (i := .vzipT1D size d m) hc (defined_double rfl h3 h2) he rfl hne⟩

/-- Settles O25: the encodings are defined, and the operation is the same in both classes. -/
theorem quadwordVzipInterleaves : Obligations.QuadwordVzipInterleaves := by
  intro s size d m hc he hsize hd hm hne
  exact ⟨exec_interleaves_quad (i := .vzipA1Q size d m) hc (defined_quad rfl hsize hd hm) he rfl hne,
    exec_interleaves_quad (i := .vzipT1Q size d m) hc (defined_quad rfl hsize hd hm) he rfl hne⟩

/-- Settles O26: one register named twice passes the guards like any other operands. -/
theorem sameRegisterTwiceCompletes : Obligations.SameRegisterTwiceCompletes := by
  refine fun s size d hc he h3 => ⟨fun h2 => ?_, fun hd => ?_⟩
  · exact ⟨exec_othersUnchanged (i := .vzipA1D size d d) hc (defined_double rfl h3 h2) he,
      exec_othersUnchanged (i := .vzipT1D size d d) hc (defined_double rfl h3 h2) he⟩
  · exact ⟨exec_othersUnchanged (i := .vzipA1Q size d d) hc (defined_quad rfl h3 hd hd) he,
      exec_othersUnchanged (i := .vzipT1Q size d d) hc (defined_quad rfl h3 hd hd) he⟩

/-- The advance alone changes nothing but the pc and the step index. -/
theorem completed_advance (s : State) : Completed s s.advance := by
  simp [Completed]

/-- Settles O28: the operation of a defined encoding ran, or the advance alone. -/
theorem vzipFrame : Obligations.VzipFrame := by
  intro i s t h
  rcases exec_next h with ⟨-, hu, -, rfl⟩ | ⟨-, -, rfl⟩
  · exact ⟨completed_operation i s, operationOf_othersUnchanged hu s⟩
  · exact ⟨completed_advance s, fun r _ _ _ => State.readD_advance s r⟩

end Sys2Proof
end

section
/-! SUPPORT. The interleaving as a movement of elements: the temporary, the elements of both results, and repetition. -/

namespace Sys2Proof

open Sys2Proof.Machine Sys2Proof.Claims

/-- A legal shape is a whole number of pairs of elements, of some bits each (R76). -/
theorem legalShape_in_pairs {shape : Nat × Nat} (h : shape ∈ legalShapes) :
    0 < shape.2 ∧ ∃ pairs, shape.1 = 2 * pairs * shape.2 := by
  simp only [legalShapes, List.mem_cons, List.not_mem_nil, or_false] at h
  rcases h with rfl | rfl | rfl | rfl | rfl
  · exact ⟨by decide, 4, rfl⟩
  · exact ⟨by decide, 2, rfl⟩
  · exact ⟨by decide, 8, rfl⟩
  · exact ⟨by decide, 4, rfl⟩
  · exact ⟨by decide, 2, rfl⟩

/-! ### The temporary -/

/-- Where a vector is a whole number of elements the loop writes every element of its temporary (R79). -/
theorem zipLoop_eq_of_whole {w size n : Nat} (hw : w = n * size) (hpos : 0 < size) (a b : BitVec w)
    (y z : BitVec (2 * w)) : zipLoop size a b n y = zipLoop size a b n z := by
  have hall : 2 * w = 2 * n * size := by rw [hw, Nat.mul_assoc]
  refine eq_of_elem_eq hall hpos fun f hf => ?_
  have hfit : f * size + size ≤ 2 * w := by
    rw [hall, ← Nat.succ_mul]
    exact Nat.mul_le_mul_right size hf
  rw [elem_zipLoop size a b n y f hfit hall.ge, elem_zipLoop size a b n z f hfit hall.ge, if_pos hf, if_pos hf]

/-- Settles O29: the loop writes every element, so no old one is left. -/
theorem temporaryContentUnobserved : Obligations.TemporaryContentUnobserved := by
  intro shape hshape a b y z
  obtain ⟨hpos, pairs, hw⟩ := legalShape_in_pairs hshape
  have hwhole : shape.1 = shape.1 / shape.2 * shape.2 := (Nat.div_mul_cancel ⟨_, hw.trans (Nat.mul_comm _ _)⟩).symm
  exact zipLoop_eq_of_whole hwhole hpos a b y z

/-! ### The places elements come from -/

/-- Two sequences in turn. -/
def alternating {α : Type} (f g : Nat → α) (j : Nat) : α := if j % 2 = 0 then f (j / 2) else g (j / 2)

theorem alternating_even {α : Type} (f g : Nat → α) (n : Nat) : alternating f g (2 * n) = f n := by
  simp [alternating]

theorem alternating_odd {α : Type} (f g : Nat → α) (n : Nat) : alternating f g (2 * n + 1) = g n := by
  have hhalf : (2 * n + 1) / 2 = n := by omega
  rw [alternating, if_neg (by omega), hhalf]

/-- The terms of two sequences in turn are the terms of each. -/
theorem alternating_perm {α : Type} (f g : Nat → α) (n : Nat) :
    ((List.range (2 * n)).map (alternating f g)).Perm ((List.range n).map f ++ (List.range n).map g) := by
  induction n with
  | zero => exact .refl _
  | succ n ih =>
    have hleft : (List.range (2 * (n + 1))).map (alternating f g) =
        (List.range (2 * n)).map (alternating f g) ++ [f n, g n] := by
      simp [Nat.mul_succ, List.range_succ, alternating_even, alternating_odd]
    have hright : (List.range (n + 1)).map f ++ (List.range (n + 1)).map g =
        (List.range n).map f ++ ([f n] ++ ((List.range n).map g ++ [g n])) := by
      simp [List.range_succ]
    rw [hleft, hright]
    refine (ih.append_right _).trans ?_
    rw [List.append_assoc]
    exact (List.perm_middle (l₂ := [g n])).append_left _

/-- The place among the 2n elements of two registers that element `f` of the interleaved registers comes from: the two
registers in turn (R82). -/
def sourceOf (n : Nat) : Nat → Nat := alternating id (n + ·)

theorem sourceOf_even {n f : Nat} (h : f % 2 = 0) : sourceOf n f = f / 2 := if_pos h

theorem sourceOf_odd {n f : Nat} (h : f % 2 = 1) : sourceOf n f = n + f / 2 := if_neg (by omega)

theorem sourceOf_lt {n f : Nat} (h : f < 2 * n) : sourceOf n f < 2 * n := by
  rcases Nat.mod_two_eq_zero_or_one f with hpar | hpar
  · rw [sourceOf_even hpar]; omega
  · rw [sourceOf_odd hpar]; omega

/-- Every place is some element's source once. -/
theorem sourceOf_perm (n : Nat) : ((List.range (2 * n)).map (sourceOf n)).Perm (List.range (2 * n)) := by
  have h := alternating_perm id (n + ·) n
  rwa [List.map_id, ← List.range_add, ← Nat.two_mul] at h

/-! ### The elements of two registers -/

/-- An element of two vectors of n elements each, those of the first before those of the second. -/
def pairElem {w : Nat} (n size : Nat) (p : BitVec w × BitVec w) (f : Nat) : BitVec size :=
  if f < n then elem p.1 f size else elem p.2 (f - n) size

theorem pairElem_first {w n size f : Nat} (p : BitVec w × BitVec w) (h : f < n) :
    pairElem n size p f = elem p.1 f size := if_pos h

theorem pairElem_second {w n size : Nat} (p : BitVec w × BitVec w) (j : Nat) :
    pairElem n size p (n + j) = elem p.2 j size := by
  rw [pairElem, if_neg (by omega), Nat.add_sub_cancel_left]

/-- The two registers after one interleaving (R80). -/
def zipPair {w : Nat} (size : Nat) (p : BitVec w × BitVec w) : BitVec w × BitVec w :=
  (zipLow size p.1 p.2, zipHigh size p.1 p.2)

/-- The elements of two vectors in a row. -/
theorem elements_append {w n size : Nat} (hn : w / size = n) (p : BitVec w × BitVec w) :
    elements size p.1 ++ elements size p.2 = (List.range (2 * n)).map (pairElem n size p) := by
  rw [Nat.two_mul, List.range_add, List.map_append, List.map_map, elements, elements, hn]
  congr 1
  · exact List.map_congr_left fun f hf => (pairElem_first p (List.mem_range.mp hf)).symm
  · exact List.map_congr_left fun f _ => (pairElem_second p f).symm

section
variable {w size h : Nat} (hw : w = 2 * h * size) (hpos : 0 < size)
include hw hpos

/-- Interleaving moves each element from its source, unchanged (R82). -/
theorem pairElem_zipPair (p : BitVec w × BitVec w) {f : Nat} (hf : f < 2 * (2 * h)) :
    pairElem (2 * h) size (zipPair size p) f = pairElem (2 * h) size p (sourceOf (2 * h) f) := by
  rcases Nat.lt_or_ge f (2 * h) with hlow | hhigh
  · rw [pairElem_first _ hlow, zipPair, elem_zipLow hw hpos p.1 p.2 f hlow]
    rcases Nat.mod_two_eq_zero_or_one f with hpar | hpar
    · rw [if_pos hpar, sourceOf_even hpar, pairElem_first p (by omega)]
    · rw [if_neg (by omega), sourceOf_odd hpar, pairElem_second]
  · obtain ⟨j, rfl⟩ := Nat.exists_eq_add_of_le hhigh
    have hhalf : (2 * h + j) / 2 = h + j / 2 := by omega
    rw [pairElem_second, zipPair, elem_zipHigh hw hpos p.1 p.2 j (by omega)]
    rcases Nat.mod_two_eq_zero_or_one j with hpar | hpar
    · rw [if_pos hpar, sourceOf_even (by omega), hhalf, pairElem_first p (by omega)]
    · rw [if_neg (by omega), sourceOf_odd (by omega), hhalf, pairElem_second]

/-- Vectors with the same elements at every place are the same. -/
theorem eq_of_pairElem_eq {p q : BitVec w × BitVec w}
    (hpq : ∀ f < 2 * (2 * h), pairElem (2 * h) size p f = pairElem (2 * h) size q f) : p = q := by
  refine Prod.ext (eq_of_elem_eq hw hpos fun j hj => ?_) (eq_of_elem_eq hw hpos fun j hj => ?_)
  · simpa only [pairElem_first _ hj] using hpq j (by omega)
  · simpa only [pairElem_second] using hpq (2 * h + j) (by omega)

/-- Repeated interleaving moves each element from its repeated source. -/
theorem pairElem_repeated (k : Nat) (p : BitVec w × BitVec w) {f : Nat} (hf : f < 2 * (2 * h)) :
    pairElem (2 * h) size (repeated size k p) f = pairElem (2 * h) size p ((sourceOf (2 * h))^[k] f) := by
  have hbound : ∀ j, (sourceOf (2 * h))^[j] f < 2 * (2 * h) := fun j => by
    induction j with
    | zero => exact hf
    | succ j ih => rw [Function.iterate_succ_apply']; exact sourceOf_lt ih
  induction k generalizing p with
  | zero => rfl
  | succ k ih =>
    rw [Function.iterate_succ_apply', ← pairElem_zipPair hw hpos p (hbound k), ← ih]
    rfl

end

/-- Settles O30: the elements after are the elements before at their sources, and every place is a source once. -/
theorem elementsConserved : Obligations.ElementsConserved := by
  intro shape hshape a b
  obtain ⟨hpos, pairs, hw⟩ := legalShape_in_pairs hshape
  have hcount : shape.1 / shape.2 = 2 * pairs := Nat.div_eq_of_eq_mul_left hpos hw
  have hmoved : (List.range (2 * (2 * pairs))).map (pairElem (2 * pairs) shape.2 (zipPair shape.2 (a, b))) =
      ((List.range (2 * (2 * pairs))).map (sourceOf (2 * pairs))).map (pairElem (2 * pairs) shape.2 (a, b)) := by
    rw [List.map_map]
    exact List.map_congr_left fun f hf => pairElem_zipPair hw hpos (a, b) (List.mem_range.mp hf)
  have hafter : elements shape.2 (zipLow shape.2 a b) ++ elements shape.2 (zipHigh shape.2 a b) = _ :=
    (elements_append hcount (zipPair shape.2 (a, b))).trans hmoved
  have hbefore : elements shape.2 a ++ elements shape.2 b = _ := elements_append hcount (a, b)
  rw [hafter, hbefore]
  exact (sourceOf_perm (2 * pairs)).map _

/-! ### Repetition -/

/-- The legal shapes with the number of repetitions that restores the registers (95_test_vectors.md section 2.4). -/
def restoringCounts : List ((Nat × Nat) × Nat) :=
  [((64, 8), 4), ((64, 16), 3), ((128, 8), 5), ((128, 16), 4), ((128, 32), 3)]

/-- After that many repetitions every place is its own source. -/
theorem source_restored {entry : (Nat × Nat) × Nat} (hentry : entry ∈ restoringCounts) :
    0 < entry.1.2 ∧ ∃ pairs, entry.1.1 = 2 * pairs * entry.1.2 ∧
      ∀ f < 2 * (2 * pairs), (sourceOf (2 * pairs))^[entry.2] f = f := by
  simp only [restoringCounts, List.mem_cons, List.not_mem_nil, or_false] at hentry
  rcases hentry with rfl | rfl | rfl | rfl | rfl
  · exact ⟨by decide, 4, rfl, by decide⟩
  · exact ⟨by decide, 2, rfl, by decide⟩
  · exact ⟨by decide, 8, rfl, by decide⟩
  · exact ⟨by decide, 4, rfl, by decide⟩
  · exact ⟨by decide, 2, rfl, by decide⟩

/-- With one bit set, in element 1, no smaller number of repetitions restores the registers. -/
theorem not_restored_earlier : ∀ entry ∈ restoringCounts, ∀ n < entry.2, 0 < n →
    repeated entry.1.2 n (BitVec.ofNat entry.1.1 (2 ^ entry.1.2), 0) ≠ (BitVec.ofNat entry.1.1 (2 ^ entry.1.2), 0) := by
  decide +kernel

/-- Settles O31: every element is back at its place, and before that element 1 is not. -/
theorem repetitionRestoresRegisters : Obligations.RepetitionRestoresRegisters := by
  intro entry hentry
  obtain ⟨hpos, pairs, hw, hsource⟩ := source_restored hentry
  refine ⟨fun p => eq_of_pairElem_eq hw hpos fun f hf => ?_, _, not_restored_earlier entry hentry⟩
  rw [pairElem_repeated hw hpos entry.2 p hf, hsource f hf]

end Sys2Proof
end

section
/-! SUPPORT. The registers under both names, the launch, and runs: what is constant, how long they take, where they fault. -/

namespace Sys2Proof

open Sys2Proof.Machine

/-! ### Registers and the launch -/

/-- Settles O33: a register is read as it was written, and a write leaves the others. -/
theorem everyRegisterHoldsWhatIsWritten : Obligations.EveryRegisterHoldsWhatIsWritten := by
  intro s n r v
  split
  next h => rw [h, State.readD_writeD_same]
  next h => rw [State.readD_writeD_ne s h]

/-- The low half of Q[n] is D[2n] (R24). -/
theorem lowHalf_toNat (n : QNum) : (lowHalf n).toNat = 2 * n.toNat := by
  revert n; decide

/-- The high half of Q[n] is D[2n+1] (R24). -/
theorem highHalf_toNat (n : QNum) : (highHalf n).toNat = 2 * n.toNat + 1 := by
  revert n; decide

/-- Settles O34: D[2n] and D[2n+1] are the halves of Q[n]. -/
theorem quadRegistersAreDoublePairs : Obligations.QuadRegistersAreDoublePairs := by
  intro s n lo hi v hlo hhi
  obtain rfl : lo = lowHalf n := BitVec.eq_of_toNat_eq (hlo.trans (lowHalf_toNat n).symm)
  obtain rfl : hi = highHalf n := BitVec.eq_of_toNat_eq (hhi.trans (highHalf_toNat n).symm)
  exact ⟨rfl, s.readD_writeQ_low n v, s.readD_writeQ_high n v, fun r hl hh => s.readD_writeQ_other hl hh v⟩

/-- Settles O38: a launch state holds its record, and the list of condition results taken for reset is empty. -/
theorem launchState : Obligations.LaunchState := by
  refine ⟨fun params sys iset startPc dregs => ⟨rfl, rfl, rfl, rfl, fun n => rfl⟩, rfl, rfl, fun iset k => ?_⟩
  cases iset with
  | A32 => rfl
  | T32 => simp [State.conditionPassed, condResult, State.reset, Params.reset]

/-! ### One step of a run to its end -/

theorem runToEnd_of_atEnd {s : State} (h : s.atEnd = true) (n : Nat) : runToEnd n s = .finished s := by
  cases n <;> simp [runToEnd, h]

theorem atEnd_iff (s : State) : s.atEnd = true ↔ s.pc = s.params.endPc := beq_iff_eq

/-- What a run asked for one more step does: it is at its end, or it makes a step and goes on from there, or it stops
in the state it is in (R108). -/
theorem runToEnd_succ_cases (n : Nat) (s : State) :
    (s.atEnd = true ∧ runToEnd (n + 1) s = .finished s) ∨
    (∃ t, s.atEnd = false ∧ step s = .next t ∧ runToEnd (n + 1) s = runToEnd n t) ∨
    (∃ f, step s = .fault f ∧ runToEnd (n + 1) s = .faulted s f) ∨
    (∃ r, step s = .refused r ∧ runToEnd (n + 1) s = .refused s r) := by
  cases he : s.atEnd with
  | true => exact .inl ⟨rfl, runToEnd_of_atEnd he _⟩
  | false =>
    cases hs : step s with
    | next t => exact .inr (.inl ⟨t, rfl, rfl, runToEnd_succ_next he hs n⟩)
    | fault f => exact .inr (.inr (.inl ⟨f, rfl, by simp [runToEnd, he, hs]⟩))
    | refused r => exact .inr (.inr (.inr ⟨r, rfl, by simp [runToEnd, he, hs]⟩))

/-- A relation that holds of every state and itself and passes through every completed step holds between the start of a run
and the state it stands in. -/
theorem runToEnd_induction {R : State → State → Prop} (hrefl : ∀ s, R s s)
    (hstep : ∀ {s t u}, step s = .next t → R t u → R s u) (n : Nat) (s : State) : R s (runToEnd n s).state := by
  induction n generalizing s with
  | zero =>
    rw [runToEnd]
    split <;> exact hrefl s
  | succ n ih =>
    rcases runToEnd_succ_cases n s with ⟨-, hr⟩ | ⟨t, -, hs, hr⟩ | ⟨f, -, hr⟩ | ⟨r, -, hr⟩ <;> rw [hr]
    · exact hrefl s
    · exact hstep hs (ih t)
    · exact hrefl s
    · exact hrefl s

/-- Settles O39: every completed step keeps them. -/
theorem runConstants : Obligations.RunConstants := by
  intro n s
  suffices h : (runToEnd n s).state.params = s.params ∧ (runToEnd n s).state.iset = s.iset ∧
      (runToEnd n s).state.sys = s.sys by
    obtain ⟨hparams, hiset, hsys⟩ := h
    exact ⟨hparams, hiset, hsys, fun a => by rw [hparams]⟩
  refine runToEnd_induction (R := fun s u => u.params = s.params ∧ u.iset = s.iset ∧ u.sys = s.sys)
    (fun _ => ⟨rfl, rfl, rfl⟩) (fun hs hu => ?_) n s
  obtain ⟨-, hiset, -, hparams, hsys⟩ := step_next_frame hs
  obtain ⟨huparams, huiset, husys⟩ := hu
  exact ⟨huparams.trans hparams, huiset.trans hiset, husys.trans hsys⟩

/-- n + 1 words on is n words on from the next word (R27). -/
theorem words_on_succ (x : Word) (n : Nat) :
    x + BitVec.ofNat 32 (4 * (n + 1)) = x + 4 + BitVec.ofNat 32 (4 * n) := by
  rw [Nat.mul_succ, Nat.add_comm, BitVec.ofNat_add, ← BitVec.add_assoc]
  rfl

/-- Fewer than 2^30 words on is the same address only for no words on. -/
theorem eq_zero_of_words_on {x : Word} {n : Nat} (hn : n < 2 ^ 30) (h : x = x + BitVec.ofNat 32 (4 * n)) : n = 0 := by
  have h0 : BitVec.ofNat 32 (4 * n) = 0#32 := by simpa using h.symm
  have := congrArg BitVec.toNat h0
  rw [BitVec.toNat_ofNat, BitVec.toNat_ofNat, Nat.mod_eq_of_lt (by omega)] at this
  omega

/-- A run that stands at its end, n words on from where it stands, has no word left. -/
theorem run_of_atEnd {s : State} {n : Nat} (hn : n < 2 ^ 30) (hend : s.params.endPc = s.pc + BitVec.ofNat 32 (4 * n))
    (he : s.atEnd = true) : s.pc = s.params.endPc ∧ s.k = s.k + n ∧ Host.Core.run core n s = .next s := by
  have hpc := (atEnd_iff s).mp he
  obtain rfl := eq_zero_of_words_on hn (hpc.trans hend)
  exact ⟨hpc, rfl, rfl⟩

/-- A run that does not stand at its end, n words on, has a word left. -/
theorem word_left_of_not_atEnd {s : State} {n : Nat} (hend : s.params.endPc = s.pc + BitVec.ofNat 32 (4 * n))
    (he : s.atEnd = false) : ∃ l, n = l + 1 := by
  refine Nat.exists_eq_succ_of_ne_zero ?_
  rintro rfl
  have hpc : s.params.endPc = s.pc := by simpa using hend
  rw [(atEnd_iff s).mpr hpc.symm] at he
  cases he

/-- Settles O40: each step brings the pc one word nearer to the end, which it meets at no earlier word. -/
theorem runTakesOneStepPerWord : Obligations.RunTakesOneStepPerWord := by
  intro fuel
  induction fuel with
  | zero =>
    intro n s t hn hend hrun
    rw [runToEnd] at hrun
    split at hrun
    next he =>
      cases hrun
      exact run_of_atEnd hn hend he
    next => cases hrun
  | succ fuel ih =>
    intro n s t hn hend hrun
    rcases runToEnd_succ_cases fuel s with ⟨he, hr⟩ | ⟨u, he, hs, hr⟩ | ⟨f, -, hr⟩ | ⟨r, -, hr⟩ <;>
      rw [hr] at hrun
    · cases hrun
      exact run_of_atEnd hn hend he
    · obtain ⟨l, rfl⟩ := word_left_of_not_atEnd hend he
      obtain ⟨hpc, -, hk, hparams, -⟩ := step_next_frame hs
      have hendNext : u.params.endPc = u.pc + BitVec.ofNat 32 (4 * l) := by
        rw [hparams, hend, hpc, words_on_succ]
      obtain ⟨htpc, htk, hreach⟩ := ih l u t (by omega) hendNext hrun
      exact ⟨hparams ▸ htpc, by omega, (run_succ_next hs l).trans hreach⟩
    · cases hrun
    · cases hrun

/-- Settles O41: a run faults at its first step, or goes on to fault after a completed one. -/
theorem faultsArePrecise : Obligations.FaultsArePrecise := by
  intro fuel
  induction fuel with
  | zero =>
    intro s t f hrun
    rw [runToEnd] at hrun
    split at hrun <;> cases hrun
  | succ fuel ih =>
    intro s t f hrun
    rcases runToEnd_succ_cases fuel s with ⟨-, hr⟩ | ⟨u, -, hs, hr⟩ | ⟨g, hs, hr⟩ | ⟨r, -, hr⟩ <;>
      rw [hr] at hrun
    · cases hrun
    · obtain ⟨n, hn, hreach, hfault, hpc⟩ := ih u t f hrun
      refine ⟨n + 1, by omega, (run_succ_next hs n).trans hreach, hfault, ?_⟩
      rw [hpc, (step_next_frame hs).1, words_on_succ]
    · cases hrun
      exact ⟨0, by omega, rfl, hs, by simp⟩
    · cases hrun

/-! ### Text of defined encodings -/

/-- A defined encoding completes where the check is Enabled, whether or not its condition passes (R91, R95). -/
theorem exec_of_defined {i : Instr} {s : State} (hu : i.undef = false) (he : s.params.advsimdCheck = .enabled) :
    ∃ t, exec i s = .next t := by
  cases hc : s.conditionPassed with
  | true => exact ⟨_, exec_of_guards hc hu he⟩
  | false => exact ⟨_, (exec_of_failed_condition hc).trans (if_neg (by simp [hu]))⟩

/-- The word at an address of the text is a defined encoding of the instruction set (R58). -/
def DefinedAt (s : State) (pc : Word) : Prop :=
  ∃ bytes rest i, ({ s with pc := pc } : State).fetch = some bytes ∧ decode s.iset bytes = .ok i rest ∧ i.undef = false

/-- A fetch looks at the pc and the text alone (R39). -/
theorem fetch_congr {s t : State} (hpc : t.pc = s.pc) (hparams : t.params = s.params) : t.fetch = s.fetch := by
  rw [State.fetch, hpc, hparams, State.fetch]

theorem definedAt_congr {s t : State} (hparams : t.params = s.params) (hiset : t.iset = s.iset) {pc : Word}
    (h : DefinedAt s pc) : DefinedAt t pc := by
  obtain ⟨bytes, rest, i, hf, hd, hu⟩ := h
  have hfetch : ({ t with pc := pc } : State).fetch = ({ s with pc := pc } : State).fetch := fetch_congr rfl hparams
  exact ⟨bytes, rest, i, hfetch.trans hf, hiset ▸ hd, hu⟩

theorem step_of_definedAt {s : State} (ha : s.pcAligned = true) (he : s.params.advsimdCheck = .enabled)
    (h : DefinedAt s s.pc) : ∃ t, step s = .next t := by
  obtain ⟨bytes, rest, i, hf, hd, hu⟩ := h
  rw [step_eq_exec ha hf hd]
  exact exec_of_defined hu he

/-- From an aligned pc n words before the end, over defined encodings, a run finishes after n steps. -/
theorem runToEnd_of_defined (n : Nat) (s : State) (ha : s.pcAligned = true)
    (he : s.params.advsimdCheck = .enabled) (hend : s.params.endPc.toNat = s.pc.toNat + 4 * n)
    (htext : ∀ j < n, DefinedAt s (s.pc + BitVec.ofNat 32 (4 * j))) :
    ∃ t, runToEnd n s = .finished t ∧ t.k = s.k + n ∧ t.pc = s.params.endPc := by
  induction n generalizing s with
  | zero =>
    have hpc : s.pc = s.params.endPc := BitVec.eq_of_toNat_eq hend.symm
    exact ⟨s, runToEnd_of_atEnd ((atEnd_iff s).mpr hpc) 0, rfl, hpc⟩
  | succ n ih =>
    obtain ⟨u, hs⟩ := step_of_definedAt ha he (by simpa using htext 0 n.succ_pos)
    obtain ⟨hpc, hiset, hk, hparams, -⟩ := step_next_frame hs
    have hnot : s.atEnd = false := by
      refine Bool.eq_false_iff.mpr fun h => ?_
      rw [← (atEnd_iff s).mp h] at hend
      omega
    have hnext : u.pc.toNat = s.pc.toNat + 4 := by
      have := s.params.endPc.isLt
      rw [hpc, BitVec.toNat_add]
      exact Nat.mod_eq_of_lt (by simp; omega)
    obtain ⟨t, hrun, htk, htpc⟩ := ih u (step_next_aligned hs) (hparams ▸ he) (by rw [hparams]; omega) fun j hj => by
      rw [hpc, ← words_on_succ]
      exact definedAt_congr hparams hiset (htext (j + 1) (by omega))
    exact ⟨t, (runToEnd_succ_next hnot hs n).trans hrun, by omega, hparams ▸ htpc⟩

/-- Settles O42: the launch premises are those of a run over defined encodings, with k = 0. -/
theorem definedTextRunsToItsEnd : Obligations.DefinedTextRunsToItsEnd := by
  intro n s hlaunch htext
  obtain ⟨hk, ha, -, hend, he, -⟩ := hlaunch
  obtain ⟨t, hrun, htk, htpc⟩ := runToEnd_of_defined n s ha he hend htext
  exact ⟨t, hrun, by omega, htpc⟩

end Sys2Proof
end
